-- ==== Sys2Proof/Word.lean ====
section
/-! DEFINITION. Word.lean: the widths of the hardware's values (00_scope.md R5), each written once.
All data are unsigned bytes (R7); nothing is signed and nothing is wider than a byte except the
instruction word on the instruction port (30_encoding.md R58). -/

namespace Sys2Proof

/-- `u8` of R7: the accumulator, the program counter, a memory cell, an operand (`XLEN`, `PCW`,
`CELLW`, `OPDW` of R5). -/
abbrev Byte := BitVec 8

/-- The address of one of the 16 memory cells (`ADDRW` of R5, R19). -/
abbrev CellAddr := BitVec 4

/-- The 16-bit instruction word of format W16 (R58). -/
abbrev InstrWord := BitVec 16

/-- The opcode field `opc` of an instruction word (R58). -/
abbrev OpcodeNum := BitVec 6

end Sys2Proof
end

