-- ==== Sys2Proof/Config.lean ====
section
/-! DEFINITION. Config.lean: what is fixed for the machine (00_scope.md R5) and the two parameters the
spec leaves open (R6). The spec has no free value: nothing is undefined (93_implementation_defined.md
U15), so this file declares no opaque constant. -/

namespace Sys2Proof

/-- The sizes of R5, in one record, as 93 U14 asks. The widths of types stand in Word.lean;
`Tests.test_sizes_agree_with_types` compares the two. -/
structure Sizes where
  xlen       : Nat
  pcw        : Nat
  ncells     : Nat
  cellw      : Nat
  addrw      : Nat
  opdw       : Nat
  flags      : Nat
  mnemonics  : Nat
  faultKinds : Nat
  agents     : Nat
  deriving DecidableEq, Repr

/-- The table of R5. -/
def Config.sizes : Sizes :=
  { xlen := 8, pcw := 8, ncells := 16, cellw := 8, addrw := 4, opdw := 8, flags := 2, mnemonics := 16,
    faultKinds := 3, agents := 1 }

/-- The open parameter of the datapath (R6, 92 D6). `pcAdvanceAll` is `PC_ADVANCE_ALL`: when true each of
the eleven data instructions adds 1 to `PC`, when false they leave it alone. A model takes it as an
argument; here it stands in `State.params`, so a statement about every state covers both values. -/
structure Params where
  pcAdvanceAll : Bool
  deriving DecidableEq, Repr

/-- The value R6 recommends. DESIGN CHOICE (log entry 1, unsafe): the source document settles neither. -/
def Config.recommended : Params := { pcAdvanceAll := false }

/-- The type of the assembler's open parameter `HEX_PARSE_EXT` (R6, R54): a set of strings with a value
function, in one function: the byte of a spelling in the set, none outside it. The set may be infinite (leading
zeros beyond two digits). It is no part of the state. -/
abbrev HexParseExt := List Char → Option Byte

/-- `HEX_PARSE_EXT` as R6 recommends it: the empty set. DESIGN CHOICE (log entry 2, unsafe). -/
def Config.hexParseExt : HexParseExt := fun _ => none

end Sys2Proof
end

