-- ==== Sys2Proof/Syntax.lean ====
section
/-! DEFINITION. Syntax.lean: the instructions as the datapath receives them (30_encoding.md R50, R51): one
constructor per row of spec/opcode_table.json. -/

namespace Sys2Proof

/-- The operand status `ost` of R50. -/
inductive OperandStatus where
  /-- No operand was supplied. -/
  | absent
  /-- An operand was supplied and is a valid hexadecimal byte. -/
  | valid
  /-- An operand was supplied and is not a valid hexadecimal byte. -/
  | malformed
  deriving DecidableEq, Repr

/-- The pair `(ost, opd)` of R50. `value` is the byte `w[7:0]` of the word whatever the status is (R60);
it has a meaning only when the status is `valid`. -/
structure Operand where
  status : OperandStatus
  value  : Byte
  deriving DecidableEq, Repr

/-- An instruction `(op, ost, opd)` of R50. The two last constructors are the two rows of the opcode table
for the words that select no instruction (R60, R61): `op = Unknown`, with the opcode number that the word
holds. -/
inductive Instr where
  | nop (o : Operand)
  | lda (o : Operand)
  | and (o : Operand)
  | ora (o : Operand)
  | xor (o : Operand)
  | invert (o : Operand)
  | jmp (o : Operand)
  | jz (o : Operand)
  | jc (o : Operand)
  | rlc (o : Operand)
  | rrc (o : Operand)
  | store (o : Operand)
  | move (o : Operand)
  | dec (o : Operand)
  | inc (o : Operand)
  | halt (o : Operand)
  | unknown16to31 (opc : OpcodeNum) (o : Operand)
  | unknown32to63 (opc : OpcodeNum) (o : Operand)
  deriving DecidableEq, Repr

/-- The operand fields of an instruction. -/
def Instr.operand : Instr → Operand
  | .nop o => o
  | .lda o => o
  | .and o => o
  | .ora o => o
  | .xor o => o
  | .invert o => o
  | .jmp o => o
  | .jz o => o
  | .jc o => o
  | .rlc o => o
  | .rrc o => o
  | .store o => o
  | .move o => o
  | .dec o => o
  | .inc o => o
  | .halt o => o
  | .unknown16to31 _ o => o
  | .unknown32to63 _ o => o

/-- The same instruction with other operand fields. -/
def Instr.withOperand (i : Instr) (o : Operand) : Instr :=
  match i with
  | .nop _ => .nop o
  | .lda _ => .lda o
  | .and _ => .and o
  | .ora _ => .ora o
  | .xor _ => .xor o
  | .invert _ => .invert o
  | .jmp _ => .jmp o
  | .jz _ => .jz o
  | .jc _ => .jc o
  | .rlc _ => .rlc o
  | .rrc _ => .rrc o
  | .store _ => .store o
  | .move _ => .move o
  | .dec _ => .dec o
  | .inc _ => .inc o
  | .halt _ => .halt o
  | .unknown16to31 opc _ => .unknown16to31 opc o
  | .unknown32to63 opc _ => .unknown32to63 opc o

end Sys2Proof
end

