-- ==== Sys2Proof/WellFormed.lean ====
section
/-! DEFINITION. WellFormed.lean: which terms of `Instr` are instructions of the hardware, that is, which
of them some 16-bit word decodes to (30_encoding.md R58 to R60). Every operand field holds by its type;
what the types leave is the opcode number of an unknown instruction. -/

namespace Sys2Proof

/-- R60, table row UNKNOWN_16_31: the opcode number of such a word is 16 to 31. -/
def wfUnknown16to31 (opc : OpcodeNum) : Bool := decide (16 ≤ opc.toNat ∧ opc.toNat ≤ 31)

/-- R60, table row UNKNOWN_32_63: the opcode number of such a word is 32 to 63. -/
def wfUnknown32to63 (opc : OpcodeNum) : Bool := decide (32 ≤ opc.toNat)

/-- The well-formed instructions: the ones decoding can answer (R60). An instruction whose operand is
missing, malformed or out of range is well-formed: the datapath executes it and it raises its fault
(40_step_nop.md R80). -/
def Instr.wf : Instr → Bool
  | .nop _ => true
  | .lda _ => true
  | .and _ => true
  | .ora _ => true
  | .xor _ => true
  | .invert _ => true
  | .jmp _ => true
  | .jz _ => true
  | .jc _ => true
  | .rlc _ => true
  | .rrc _ => true
  | .store _ => true
  | .move _ => true
  | .dec _ => true
  | .inc _ => true
  | .halt _ => true
  | .unknown16to31 opc _ => wfUnknown16to31 opc
  | .unknown32to63 opc _ => wfUnknown32to63 opc

end Sys2Proof
end

