-- ==== Sys2Proof/Decode.lean ====
section
/-! DEFINITION. Decode.lean: the instruction word of format W16 (30_encoding.md R58 to R61): reading its
fields, decoding (total on all 65536 words, R60: a word that selects no instruction decodes to one of the
two unknown rows, by name, and nothing is rejected), the encoder, and the 18 rows of the opcode table.
The bit patterns are this spec's own choice (92 D2, D3), not the source document's. -/

namespace Sys2Proof

/-! ### The fields of a word (R58) -/

/-- `w[15:10]`, the opcode number. -/
def opcField (w : InstrWord) : OpcodeNum := w.extractLsb' 10 6

/-- `w[9]`, `P`: an operand token was present. -/
def pField (w : InstrWord) : Bool := w.getLsbD 9

/-- `w[8]`, `V`: that token was a valid hexadecimal byte. -/
def vField (w : InstrWord) : Bool := w.getLsbD 8

/-- `w[7:0]`, the operand byte. -/
def opdField (w : InstrWord) : Byte := w.extractLsb' 0 8

/-- The operand status of R60: `P = 0` is Absent whatever `V` is. -/
def operandStatus (p v : Bool) : OperandStatus :=
  match p, v with
  | false, _ => .absent
  | true, true => .valid
  | true, false => .malformed

/-- `ost` and `opd` of R60. -/
def decodeOperand (w : InstrWord) : Operand :=
  { status := operandStatus (pField w) (vField w), value := opdField w }

/-- The instruction that an opcode number selects (R59, R61), with the given operand fields. -/
def instrOf (opc : OpcodeNum) (o : Operand) : Instr :=
  match opc.toNat with
  | 0 => .nop o
  | 1 => .lda o
  | 2 => .and o
  | 3 => .ora o
  | 4 => .xor o
  | 5 => .invert o
  | 6 => .jmp o
  | 7 => .jz o
  | 8 => .jc o
  | 9 => .rlc o
  | 10 => .rrc o
  | 11 => .store o
  | 12 => .move o
  | 13 => .dec o
  | 14 => .inc o
  | 15 => .halt o
  | n => if n < 32 then .unknown16to31 opc o else .unknown32to63 opc o

/-- `Decode(w)` of R60. -/
def decode (w : InstrWord) : Instr := instrOf (opcField w) (decodeOperand w)

/-! ### Encoding (R58, R59, R63) -/

/-- The fields of W16 laid into a word: `opc`, `P`, `V`, `opd` from the most significant bit down (R58). -/
def packWord (opc : OpcodeNum) (p v : Bool) (opd : Byte) : InstrWord :=
  opc ++ BitVec.ofBool p ++ BitVec.ofBool v ++ opd

/-- The opcode number of an instruction (R59). -/
def Instr.opcode : Instr → OpcodeNum
  | .nop _ => 0
  | .lda _ => 1
  | .and _ => 2
  | .ora _ => 3
  | .xor _ => 4
  | .invert _ => 5
  | .jmp _ => 6
  | .jz _ => 7
  | .jc _ => 8
  | .rlc _ => 9
  | .rrc _ => 10
  | .store _ => 11
  | .move _ => 12
  | .dec _ => 13
  | .inc _ => 14
  | .halt _ => 15
  | .unknown16to31 opc _ => opc
  | .unknown32to63 opc _ => opc

/-- `P` of an operand status (R58, R63). -/
def OperandStatus.pBit : OperandStatus → Bool
  | .absent => false
  | .valid => true
  | .malformed => true

/-- `V` of an operand status (R58, R63). -/
def OperandStatus.vBit : OperandStatus → Bool
  | .absent => false
  | .valid => true
  | .malformed => false

/-- The word of an instruction (R58). The operand byte is kept even where it has no meaning. DEDUCED (log
entry 9, safe): with the status Absent the bit `V`, which decoding ignores, is written 0 as R63 does. -/
def encode (i : Instr) : InstrWord :=
  packWord i.opcode i.operand.status.pBit i.operand.status.vBit i.operand.value

/-! ### The opcode table as data (R60) -/

/-- One row of spec/opcode_table.json: the words `w` with `w AND mask = pattern`. -/
structure OpcodeRow where
  mask    : InstrWord
  pattern : InstrWord
  deriving DecidableEq, Repr

/-- The row selects the word. -/
def OpcodeRow.selects (r : OpcodeRow) (w : InstrWord) : Bool := w &&& r.mask == r.pattern

/-- The row of an instruction, its `mask` and `match` as the table has them. -/
def Instr.row : Instr → OpcodeRow
  | .nop _ => { mask := 0xFC00, pattern := 0x0000 }
  | .lda _ => { mask := 0xFC00, pattern := 0x0400 }
  | .and _ => { mask := 0xFC00, pattern := 0x0800 }
  | .ora _ => { mask := 0xFC00, pattern := 0x0C00 }
  | .xor _ => { mask := 0xFC00, pattern := 0x1000 }
  | .invert _ => { mask := 0xFC00, pattern := 0x1400 }
  | .jmp _ => { mask := 0xFC00, pattern := 0x1800 }
  | .jz _ => { mask := 0xFC00, pattern := 0x1C00 }
  | .jc _ => { mask := 0xFC00, pattern := 0x2000 }
  | .rlc _ => { mask := 0xFC00, pattern := 0x2400 }
  | .rrc _ => { mask := 0xFC00, pattern := 0x2800 }
  | .store _ => { mask := 0xFC00, pattern := 0x2C00 }
  | .move _ => { mask := 0xFC00, pattern := 0x3000 }
  | .dec _ => { mask := 0xFC00, pattern := 0x3400 }
  | .inc _ => { mask := 0xFC00, pattern := 0x3800 }
  | .halt _ => { mask := 0xFC00, pattern := 0x3C00 }
  | .unknown16to31 _ _ => { mask := 0xC000, pattern := 0x4000 }
  | .unknown32to63 _ _ => { mask := 0x8000, pattern := 0x8000 }

/-- The 18 rows, in the order of the table. -/
def opcodeTable : List OpcodeRow :=
  [{ mask := 0xFC00, pattern := 0x0000 }, { mask := 0xFC00, pattern := 0x0400 },
   { mask := 0xFC00, pattern := 0x0800 }, { mask := 0xFC00, pattern := 0x0C00 },
   { mask := 0xFC00, pattern := 0x1000 }, { mask := 0xFC00, pattern := 0x1400 },
   { mask := 0xFC00, pattern := 0x1800 }, { mask := 0xFC00, pattern := 0x1C00 },
   { mask := 0xFC00, pattern := 0x2000 }, { mask := 0xFC00, pattern := 0x2400 },
   { mask := 0xFC00, pattern := 0x2800 }, { mask := 0xFC00, pattern := 0x2C00 },
   { mask := 0xFC00, pattern := 0x3000 }, { mask := 0xFC00, pattern := 0x3400 },
   { mask := 0xFC00, pattern := 0x3800 }, { mask := 0xFC00, pattern := 0x3C00 },
   { mask := 0xC000, pattern := 0x4000 }, { mask := 0x8000, pattern := 0x8000 }]

/-! ### The host's view of a word -/

/-- The word that `nbits` bits `w` stand for, bit 0 the least significant one; the bits from `nbits` up are 0. -/
def wordOfBits (nbits w : Nat) : InstrWord := BitVec.ofNat 16 (w % 2 ^ nbits)

/-- The instruction the decoder reads from the bits `w`. The instruction port is 16 bits wide (R58, 92 D1),
so more than 16 bits are no instruction. DESIGN CHOICE (log entry 14, safe). -/
def decodeTableWord (nbits w : Nat) : Option Instr :=
  if nbits ≤ 16 then some (decode (wordOfBits nbits w)) else none

end Sys2Proof
end

