-- ==== Sys2Proof/Machine/State.lean ====
section
/-! DEFINITION. Machine/State.lean: the state as plain data (10_state.md R10, R21), the three faults and the
outcome of a step (40_step_nop.md R80, 60_exceptions.md R130), and what a step takes from outside: the
parameter of R6, the reset input and the sequencer of 44_halt_sequencer.md R122 to R125. -/

namespace Sys2Proof.Machine

/-- The three faults of the hardware (R130). Each is raised by an instruction, changes no state and stops
nothing (R81, R136, R139), so raising one is a NEXT state of the model, not a stop. -/
inductive FaultKind where
  /-- The mnemonic is not in the recognised set (R131). -/
  | unknownInstruction
  /-- A required operand is missing or is no valid hexadecimal byte (R132). -/
  | malformedOperand
  /-- A memory address outside the 16 cells (R133). -/
  | addressOutOfRange
  deriving DecidableEq, Repr

/-- The outcome that `Execute` returns with the new state (R80). -/
inductive StepOutcome where
  | ok
  | halt
  | fault (k : FaultKind)
  deriving DecidableEq, Repr

/-- The data memory: the cells whose value is not the unlisted one, by rising address
(`Memory.wf` in Machine/Ops.lean). -/
abbrev Memory := List Host.Cell

/-- `CpuState` of R10: the whole architectural state of the datapath, 146 bits. -/
structure CpuState where
  /-- `A`, the accumulator (R11). -/
  acc : Byte
  /-- `PC`, a visible counter and the jump-target register, no fetch pointer (R12). -/
  pc  : Byte
  /-- `CF`, the carry flag (R16). -/
  cf  : Bool
  /-- `ZF`, the zero flag (R15). -/
  zf  : Bool
  /-- `M[0]` to `M[15]` (R19). -/
  mem : Memory
  deriving DecidableEq, Repr

/-- One entry of the sequencer's list of outcomes: the instruction and what its step answered
(R124: a fault entry "carries the fault kind and identifies the instruction"). -/
structure Report where
  instr   : Instr
  outcome : StepOutcome
  deriving DecidableEq, Repr

/-- The instruction sequencer (R122, R123), the datapath's environment: it is no part of `CpuState` (R9). -/
structure Sequencer where
  /-- The instructions not yet presented, the next one first. -/
  pending : List InstrWord
  /-- A HALT of this run was executed: the sequencer presents nothing more (R123). The datapath itself has no
  halted latch (R121). -/
  stopped : Bool
  /-- The entries so far, oldest first. The index `k` of R123 is its length (R124). -/
  reports : List Report
  deriving DecidableEq, Repr

/-- The datapath's state with what a step takes and answers beside it. R9 calls the parameter and the
presented instruction "parameters of a step, not state"; they stand here because the host's step takes a
state alone. -/
structure State where
  /-- The architectural state (R10). -/
  cpu     : CpuState
  /-- What the last executed step answered, shown on the outputs `fault` and `halt` (R140). No step reads it. -/
  outcome : StepOutcome
  /-- The open parameter of R6. No step writes it. -/
  params  : Params
  /-- The reset input (R150, 92 D1). No step writes it. -/
  rst     : Bool
  /-- The sequencer (R122). -/
  seq     : Sequencer
  deriving DecidableEq, Repr

/-- Why a step can stop with a fault. NO step does: the hardware's own three faults (`FaultKind`) are values
a step returns while the machine goes on (R136, R139), and every step is defined on every state (R10, R80).
DEDUCED (log entry 8, safe). -/
inductive Fault where
  deriving DecidableEq, Repr

/-- Why a step can refuse. -/
inductive Refusal where
  /-- Raised by an arm of `exec` whose instruction has no meaning yet; none is left. Safe. -/
  | notModelled (mnemonic : String)
  deriving DecidableEq, Repr

/-- The datapath after reset (R21): all zero and false; no cell listed, so every cell reads 0x00. -/
def CpuState.reset : CpuState := { acc := 0x00, pc := 0x00, cf := false, zf := false, mem := [] }

/-- The sequencer before a run is loaded. DESIGN CHOICE (log entries 3 and 4). -/
def Sequencer.empty : Sequencer := { pending := [], stopped := false, reports := [] }

/-- The machine right after reset: the datapath as R21 says; the outputs, the parameter, the reset input and
the sequencer as log entries 1, 3, 4, 5 and 7 name them. -/
def State.reset : State :=
  { cpu := CpuState.reset, outcome := .ok, params := Config.recommended, rst := false, seq := Sequencer.empty }

end Sys2Proof.Machine
end

