-- ==== Sys2Proof/Machine/Ops.lean ====
section
/-! DEFINITION. Machine/Ops.lean: the shared operations: memory (20_memory.md R36, R37), the program counter
(00_scope.md R7, 10_state.md R14), the arithmetic of the accumulator (43_rotate_incdec.md R110 to R115),
ending a step (40_step_nop.md R80), raising a fault (60_exceptions.md R136) and reset (70 R150). -/

namespace Sys2Proof.Machine

/-! ### Memory -/

/-- What an address that is not listed reads as: the reset contents (R21, R36). -/
def Memory.unlisted : Byte := 0x00

/-- The canonical form: addresses strictly rising and inside the 16 cells of R30, no entry equal to what an
unlisted address reads as. -/
def Memory.wf : Memory → Bool
  | [] => true
  | c :: m =>
    decide (c.1 < Config.sizes.ncells) && c.2 != Memory.unlisted && m.all (fun d => decide (c.1 < d.1)) &&
      Memory.wf m

/-- The byte at an address. -/
def Memory.read : Memory → Nat → Byte
  | [], _ => Memory.unlisted
  | c :: m, a => if c.1 = a then c.2 else Memory.read m a

/-- The memory without an entry for the address. -/
def Memory.erase (m : Memory) (a : Nat) : Memory := m.filter (fun c => c.1 != a)

/-- The memory with one more entry, before the first entry of a higher address. -/
def Memory.insert : Memory → Nat → Byte → Memory
  | [], a, v => [(a, v)]
  | c :: m, a, v => if a < c.1 then (a, v) :: c :: m else c :: Memory.insert m a v

/-- Writing a byte; writing what an unlisted address reads as removes the entry. -/
def Memory.write (m : Memory) (a : Nat) (v : Byte) : Memory :=
  if v = Memory.unlisted then Memory.erase m a else Memory.insert (Memory.erase m a) a v

/-- `MemRead(addr, 1)` of R36. The type of `addr` is the 16 cells, so it is never called with another. -/
def CpuState.cell (c : CpuState) (addr : CellAddr) : Byte := Memory.read c.mem addr.toNat

/-- `MemWrite(addr, 1, v)` of R37. -/
def CpuState.setCell (c : CpuState) (addr : CellAddr) (v : Byte) : CpuState :=
  { c with mem := Memory.write c.mem addr.toNat v }

/-! ### The program counter -/

/-- `(PC + 1) mod 256` (R14). -/
def pcPlusOne (pc : Byte) : Byte := pc + 1

/-- `Adv(PC)` of R7, at the parameter of R6. -/
def adv (p : Params) (pc : Byte) : Byte := if p.pcAdvanceAll then pcPlusOne pc else pc

/-! ### The accumulator's arithmetic -/

/-- `{A[6:0], A[7]}` (R110). -/
def rotateLeft (a : Byte) : Byte := a.extractLsb' 0 7 ++ a.extractLsb' 7 1

/-- `{A[0], A[7:1]}` (R111). -/
def rotateRight (a : Byte) : Byte := a.extractLsb' 0 1 ++ a.extractLsb' 1 7

/-- `(A + 1) mod 256` (R112). -/
def increment (a : Byte) : Byte := a + 1

/-- `(A - 1) mod 256` (R113). -/
def decrement (a : Byte) : Byte := a - 1

/-- The 8-bit complement (R95, R98). -/
def complement (a : Byte) : Byte := ~~~a

/-! ### How a step ends -/

/-- R80 step 4: all results of an instruction written at once, outcome Ok. -/
def complete (s : State) (c : CpuState) : Host.Outcome State Fault Refusal :=
  .next { s with cpu := c, outcome := .ok }

/-- Taking a fault, the one shared operation (R81, R136): no component of the datapath changes, nothing is
saved, nothing is jumped to, no mode changes; the step answers the kind, and the machine goes on (R139). There
is no return from a fault, since there is no handler to return from (R139, R126). -/
def raise (s : State) (k : FaultKind) : Host.Outcome State Fault Refusal :=
  .next { s with outcome := .fault k }

/-- The outcome Halt: no state is written, the caller is signalled (R120, R121). -/
def signalHalt (s : State) : Host.Outcome State Fault Refusal :=
  .next { s with outcome := .halt }

/-- Reset of the datapath (R150, R151): every component at its value of R21. DESIGN CHOICE (log entry 7): the
outputs and the sequencer keep their values. -/
def State.applyReset (s : State) : State := { s with cpu := CpuState.reset }

end Sys2Proof.Machine
end

