-- ==== Sys2Proof/Machine/Flags.lean ====
section
/-! DEFINITION. Machine/Flags.lean: every flag computation of the spec. Only the rotates compute a flag, and
only `CF` (10_state.md R16, R18). `ZF` has no computation: no instruction writes it (R15; 93 U1). INC and DEC
compute no carry (43_rotate_incdec.md R112, R113; 93 U2). -/

namespace Sys2Proof.Machine

/-- `CF` after RLC: `A[7]` of the old accumulator (R110). -/
def carryOfRotateLeft (a : Byte) : Bool := a.getLsbD 7

/-- `CF` after RRC: `A[0]` of the old accumulator (R111). -/
def carryOfRotateRight (a : Byte) : Bool := a.getLsbD 0

end Sys2Proof.Machine
end

