-- ==== Sys2Proof/Machine/Operands.lean ====
section
/-! DEFINITION. Machine/Operands.lean: every operand form: ignored (30_encoding.md R62), a required jump target
(R57, 42_jumps.md R104) and a required memory address (20_memory.md R33), with the checks of
40_step_nop.md R80 in their order. -/

namespace Sys2Proof.Machine

/-- R80 step 2: a required operand, or the fault for a missing or malformed one (R132). The byte is used as it
stands (R57). -/
def requiredOperand (o : Operand) : Except FaultKind Byte :=
  match o.status with
  | .valid => .ok o.value
  | .absent => .error .malformedOperand
  | .malformed => .error .malformedOperand

/-- R80 steps 2 and 3: a required memory address. `opd` is valid up to 0x0F and then addresses `M[opd[3:0]]`;
above that it faults and is never truncated (R33, R34). -/
def memoryAddress (o : Operand) : Except FaultKind CellAddr :=
  match requiredOperand o with
  | .error k => .error k
  | .ok b => if b.toNat < Config.sizes.ncells then .ok (b.extractLsb' 0 4) else .error .addressOutOfRange

/-- The step of a memory-addressed instruction: its checks, then its effect at the address (R97). -/
def withAddress (o : Operand) (s : State) (effect : CellAddr → CpuState) : Host.Outcome State Fault Refusal :=
  match memoryAddress o with
  | .error k => raise s k
  | .ok ea => complete s (effect ea)

/-- The step of a jump: its check, then its effect with the target (R105). -/
def withTarget (o : Operand) (s : State) (effect : Byte → CpuState) : Host.Outcome State Fault Refusal :=
  match requiredOperand o with
  | .error k => raise s k
  | .ok target => complete s (effect target)

end Sys2Proof.Machine
end

