-- ==== Sys2Proof/Machine/Control.lean ====
section
/-! DEFINITION. Machine/Control.lean: NOP (40_step_nop.md R83), HALT (44_halt_sequencer.md R120) and the two rows
of unknown opcodes (30_encoding.md R61). Operand fields are ignored (R62). -/

namespace Sys2Proof.Machine

/-- NOP (R83): `PC <- (PC + 1) mod 256`, at both values of the parameter. -/
def execNop (_o : Operand) (s : State) : Host.Outcome State Fault Refusal :=
  complete s { s.cpu with pc := pcPlusOne s.cpu.pc }

/-- HALT (R120): nothing is written, outcome Halt. -/
def execHalt (_o : Operand) (s : State) : Host.Outcome State Fault Refusal :=
  signalHalt s

/-- Opcode numbers 16 to 31 (R61, R131): the fault UnknownInstruction, operand fields not examined. -/
def execUnknown16to31 (_opc : OpcodeNum) (_o : Operand) (s : State) : Host.Outcome State Fault Refusal :=
  raise s .unknownInstruction

/-- Opcode numbers 32 to 63 (R61, R131): as 16 to 31. -/
def execUnknown32to63 (_opc : OpcodeNum) (_o : Operand) (s : State) : Host.Outcome State Fault Refusal :=
  raise s .unknownInstruction

end Sys2Proof.Machine
end

