-- ==== Sys2Proof/Machine/Jump.lean ====
section
/-! DEFINITION. Machine/Jump.lean: JMP, JZ and JC (42_jumps.md R100 to R105). A jump writes `PC` and does nothing
else; it does not choose the next instruction (R103). The operand is checked before the flag is examined
(R105); the target is not range-checked (20_memory.md R35; 92 D8). -/

namespace Sys2Proof.Machine

/-- `if taken then PC <- target else PC <- (PC + 1) mod 256`. -/
def jumpEffect (taken : Bool) (s : State) (target : Byte) : CpuState :=
  { s.cpu with pc := if taken then target else pcPlusOne s.cpu.pc }

/-- JMP (R100). -/
def execJmp (o : Operand) (s : State) : Host.Outcome State Fault Refusal :=
  withTarget o s (jumpEffect true s)

/-- JZ (R101): the condition is the flag `ZF`, not the accumulator. -/
def execJz (o : Operand) (s : State) : Host.Outcome State Fault Refusal :=
  withTarget o s (jumpEffect s.cpu.zf s)

/-- JC (R102): the condition is `CF`. -/
def execJc (o : Operand) (s : State) : Host.Outcome State Fault Refusal :=
  withTarget o s (jumpEffect s.cpu.cf s)

end Sys2Proof.Machine
end

