-- ==== Sys2Proof/Machine/LoadStore.lean ====
section
/-! DEFINITION. Machine/LoadStore.lean: LDA, MOVE and STORE (41_load_logic_store.md R90, R91, R96, R97). -/

namespace Sys2Proof.Machine

/-- `A <- MemRead(ea, 1); PC <- Adv(PC)`, the effect LDA and MOVE share (R90, R91). -/
def loadEffect (s : State) (ea : CellAddr) : CpuState :=
  { s.cpu with acc := s.cpu.cell ea, pc := adv s.params s.cpu.pc }

/-- LDA (R90). -/
def execLda (o : Operand) (s : State) : Host.Outcome State Fault Refusal :=
  withAddress o s (loadEffect s)

/-- MOVE (R91): the same effect as LDA under a second mnemonic. -/
def execMove (o : Operand) (s : State) : Host.Outcome State Fault Refusal :=
  withAddress o s (loadEffect s)

/-- STORE (R96): `MemWrite(ea, 1, A); PC <- Adv(PC)`. -/
def execStore (o : Operand) (s : State) : Host.Outcome State Fault Refusal :=
  withAddress o s fun ea => { s.cpu.setCell ea s.cpu.acc with pc := adv s.params s.cpu.pc }

end Sys2Proof.Machine
end

