-- ==== Sys2Proof/Machine/Logic.lean ====
section
/-! DEFINITION. Machine/Logic.lean: AND, ORA, XOR and INVERT (41_load_logic_store.md R92 to R95). No flag is
written (R98). The per-bit truth tables are the standard ones, which the spec itself supplies from general
knowledge (R98; 93 G3; log entry 12). -/

namespace Sys2Proof.Machine

/-- `A <- f(A, MemRead(ea, 1)); PC <- Adv(PC)`. -/
def logicEffect (f : Byte → Byte → Byte) (s : State) (ea : CellAddr) : CpuState :=
  { s.cpu with acc := f s.cpu.acc (s.cpu.cell ea), pc := adv s.params s.cpu.pc }

/-- AND (R92). -/
def execAnd (o : Operand) (s : State) : Host.Outcome State Fault Refusal :=
  withAddress o s (logicEffect (fun a m => a &&& m) s)

/-- ORA (R93). -/
def execOra (o : Operand) (s : State) : Host.Outcome State Fault Refusal :=
  withAddress o s (logicEffect (fun a m => a ||| m) s)

/-- XOR (R94). -/
def execXor (o : Operand) (s : State) : Host.Outcome State Fault Refusal :=
  withAddress o s (logicEffect (fun a m => a ^^^ m) s)

/-- INVERT (R95). -/
def execInvert (_o : Operand) (s : State) : Host.Outcome State Fault Refusal :=
  complete s { s.cpu with acc := complement s.cpu.acc, pc := adv s.params s.cpu.pc }

end Sys2Proof.Machine
end

