-- ==== Sys2Proof/Machine/RotateIncDec.lean ====
section
/-! DEFINITION. Machine/RotateIncDec.lean: RLC, RRC, INC and DEC (43_rotate_incdec.md R110 to R113). Operand
fields are ignored (30_encoding.md R62); none can fault. -/

namespace Sys2Proof.Machine

/-- RLC (R110): every right-hand side uses the accumulator before the step. -/
def execRlc (_o : Operand) (s : State) : Host.Outcome State Fault Refusal :=
  complete s { s.cpu with acc := rotateLeft s.cpu.acc, cf := carryOfRotateLeft s.cpu.acc,
                          pc := adv s.params s.cpu.pc }

/-- RRC (R111). -/
def execRrc (_o : Operand) (s : State) : Host.Outcome State Fault Refusal :=
  complete s { s.cpu with acc := rotateRight s.cpu.acc, cf := carryOfRotateRight s.cpu.acc,
                          pc := adv s.params s.cpu.pc }

/-- INC (R112): no flag, not even on the wrap. -/
def execInc (_o : Operand) (s : State) : Host.Outcome State Fault Refusal :=
  complete s { s.cpu with acc := increment s.cpu.acc, pc := adv s.params s.cpu.pc }

/-- DEC (R113): no flag, not even on the wrap. -/
def execDec (_o : Operand) (s : State) : Host.Outcome State Fault Refusal :=
  complete s { s.cpu with acc := decrement s.cpu.acc, pc := adv s.params s.cpu.pc }

end Sys2Proof.Machine
end

