-- ==== Sys2Proof/Machine/Dispatch.lean ====
section
/-! DEFINITION. Machine/Dispatch.lean: one arm per constructor of Instr. -/

namespace Sys2Proof.Machine

def exec (i : Instr) (s : State) : Host.Outcome State Fault Refusal :=
  match i with
  | .nop o => Sys2Proof.Machine.execNop o s
  | .lda o => Sys2Proof.Machine.execLda o s
  | .and o => Sys2Proof.Machine.execAnd o s
  | .ora o => Sys2Proof.Machine.execOra o s
  | .xor o => Sys2Proof.Machine.execXor o s
  | .invert o => Sys2Proof.Machine.execInvert o s
  | .jmp o => Sys2Proof.Machine.execJmp o s
  | .jz o => Sys2Proof.Machine.execJz o s
  | .jc o => Sys2Proof.Machine.execJc o s
  | .rlc o => Sys2Proof.Machine.execRlc o s
  | .rrc o => Sys2Proof.Machine.execRrc o s
  | .store o => Sys2Proof.Machine.execStore o s
  | .move o => Sys2Proof.Machine.execMove o s
  | .dec o => Sys2Proof.Machine.execDec o s
  | .inc o => Sys2Proof.Machine.execInc o s
  | .halt o => Sys2Proof.Machine.execHalt o s
  | .unknown16to31 opc o => Sys2Proof.Machine.execUnknown16to31 opc o s
  | .unknown32to63 opc o => Sys2Proof.Machine.execUnknown32to63 opc o s

end Sys2Proof.Machine
end

