-- ==== Sys2Proof/Machine/Sequencer.lean ====
section
/-! DEFINITION. Machine/Sequencer.lean: the instruction sequencer's contract (44_halt_sequencer.md R122 to R125):
what it presents, what it does with the outcome, and the batch entry point `Run`. It never reads the
datapath: `PC` does not choose the next instruction and a fault does not stop the run (R103, R123, R139). -/

namespace Sys2Proof.Machine

/-- The instruction word on the instruction port, if one is presented (`instr_valid`, `instr[15:0]` of 92 D1):
the next one of the list, none after a HALT or at the end (R123). -/
def State.presented (s : State) : Option InstrWord :=
  if s.seq.stopped then none else s.seq.pending.head?

/-- What the sequencer does with the outcome `o` of the instruction `i` it presented: it appends the entry, and
it stops on Halt; on Ok and on any fault it goes on (R123, R124). -/
def Sequencer.accept (q : Sequencer) (i : Instr) (o : StepOutcome) : Sequencer :=
  { pending := q.pending.tail, stopped := decide (o = .halt), reports := q.reports ++ [{ instr := i, outcome := o }] }

/-- The machine after the sequencer took the outcome of its last step. -/
def State.accepted (s : State) (i : Instr) : State := { s with seq := s.seq.accept i s.outcome }

/-- Executing a presented word: decode, execute, hand the outcome to the sequencer (92 D1, R123). -/
def issue (w : InstrWord) (s : State) : Host.Outcome State Fault Refusal :=
  match exec (decode w) s with
  | .next t => .next (t.accepted (decode w))
  | .fault r => .fault r
  | .refused r => .refused r

/-- Starting a run: the sequencer is given an ordered list of instruction words, with no outcome yet (R122,
R123). The datapath is not reset (R150). DESIGN CHOICE (log entry 3): the list comes from outside the machine. -/
def State.load (s : State) (prog : List InstrWord) : State :=
  { s with seq := { pending := prog, stopped := false, reports := [] } }

/-- `Run(s, prog)` of R123: the final state and the ordered list of outcomes. -/
def runBatch : List InstrWord → State → Host.Outcome (State × List Report) Fault Refusal
  | [], s => .next (s, [])
  | w :: rest, s =>
    match exec (decode w) s with
    | .fault r => .fault r
    | .refused r => .refused r
    | .next t =>
      if t.outcome = .halt then .next (t, [{ instr := decode w, outcome := t.outcome }])
      else
        match runBatch rest t with
        | .next (u, reports) => .next (u, { instr := decode w, outcome := t.outcome } :: reports)
        | .fault r => .fault r
        | .refused r => .refused r

/-- One instruction executed `n` times in a row by the single-step entry point `execute` of R80. -/
def execTimes (i : Instr) : Nat → State → Host.Outcome State Fault Refusal
  | 0, s => .next s
  | n + 1, s =>
    match exec i s with
    | .next t => execTimes i n t
    | .fault r => .fault r
    | .refused r => .refused r

end Sys2Proof.Machine
end

