-- ==== Sys2Proof/Machine/Ports.lean ====
section
/-! DEFINITION. Machine/Ports.lean: the block's ports as views of the state (92 D1, D23): the outputs `fault` and
`halt` (60_exceptions.md R130, R140), the snapshot outputs (10_state.md R25) and the instruction port. Reading
them changes nothing. -/

namespace Sys2Proof.Machine

/-- The numeric code of a fault (R130). -/
def FaultKind.code : FaultKind → BitVec 2
  | .unknownInstruction => 1
  | .malformedOperand => 2
  | .addressOutOfRange => 3

/-- The code an outcome shows on `fault[1:0]`: 0 for no fault (R130, R140). -/
def StepOutcome.faultCode : StepOutcome → BitVec 2
  | .ok => 0
  | .halt => 0
  | .fault k => k.code

/-- The bit an outcome shows on `halt` (R140). -/
def StepOutcome.haltBit : StepOutcome → Bool
  | .ok => false
  | .halt => true
  | .fault _ => false

/-- The output `fault[1:0]`. -/
def State.faultPort (s : State) : BitVec 2 := s.outcome.faultCode

/-- The output `halt`. -/
def State.haltPort (s : State) : Bool := s.outcome.haltBit

/-- The snapshot output `acc[7:0]`. -/
def State.accPort (s : State) : Byte := s.cpu.acc

/-- The snapshot output `pc[7:0]`. -/
def State.pcPort (s : State) : Byte := s.cpu.pc

/-- The snapshot output `cf`. -/
def State.cfPort (s : State) : Bool := s.cpu.cf

/-- The snapshot output `zf`. -/
def State.zfPort (s : State) : Bool := s.cpu.zf

/-- The snapshot read port: `dbg_data[7:0]` for the address on `dbg_addr[3:0]`. -/
def State.dbgData (s : State) (dbgAddr : CellAddr) : Byte := s.cpu.cell dbgAddr

/-- The input `instr_valid`, as the sequencer drives it. -/
def State.instrValid (s : State) : Bool := s.presented.isSome

end Sys2Proof.Machine
end

