-- ==== Sys2Proof/Machine/Step.lean ====
section
/-! DEFINITION. Machine/Step.lean: one step of the machine (92 D1; 40_step_nop.md R80, R82): reset when the reset
input is set, else the presented instruction, else nothing. -/

namespace Sys2Proof.Machine

/-- One step. With `rst` the datapath is reset (R150). Else the presented word is executed. With nothing
presented (`instr_valid = 0`: the list is exhausted, or the run halted) nothing changes (92 D1; log entry 6). -/
def step (s : State) : Host.Outcome State Fault Refusal :=
  if s.rst then .next s.applyReset
  else
    match s.presented with
    | none => .next s
    | some w => issue w s

/-- `s` with an instruction of `nbits` bits `w` as the next one the sequencer presents, in the place of the one
it would have presented; the reset input is released and a stopped run goes on, so that the next step executes
exactly it. -/
def State.withFetchWord (s : State) (nbits w : Nat) : State :=
  { s with rst := false,
           seq := { s.seq with pending := wordOfBits nbits w :: s.seq.pending.tail, stopped := false } }

end Sys2Proof.Machine
end

