-- ==== Sys2Proof/Machine/Assembler.lean ====
section
/-! DEFINITION. Machine/Assembler.lean: assembly text to instruction words (30_encoding.md R52 to R56, R63). It is
no part of the datapath (R63): it serves to write programs down. `HEX_PARSE_EXT` of 00_scope.md R6 is the
argument `ext`. -/

namespace Sys2Proof

/-- ASCII case folding: `a` to `z` fold to `A` to `Z`, nothing else folds (R53, 92 D21). -/
def foldChar (c : Char) : Char :=
  if 'a'.toNat ≤ c.toNat ∧ c.toNat ≤ 'z'.toNat then Char.ofNat (c.toNat - 32) else c

/-- Folding of a mnemonic (R53). -/
def foldMnemonic (m : List Char) : List Char := m.map foldChar

/-- The 16 names of R51 with their opcode numbers of R59. -/
def mnemonicNumbers : List (List Char × OpcodeNum) :=
  [(['N', 'O', 'P'], 0), (['L', 'D', 'A'], 1), (['A', 'N', 'D'], 2), (['O', 'R', 'A'], 3),
   (['X', 'O', 'R'], 4), (['I', 'N', 'V', 'E', 'R', 'T'], 5), (['J', 'M', 'P'], 6), (['J', 'Z'], 7),
   (['J', 'C'], 8), (['R', 'L', 'C'], 9), (['R', 'R', 'C'], 10), (['S', 'T', 'O', 'R', 'E'], 11),
   (['M', 'O', 'V', 'E'], 12), (['D', 'E', 'C'], 13), (['I', 'N', 'C'], 14), (['H', 'A', 'L', 'T'], 15)]

/-- The 16 names of R51 with the instruction each selects; any other name is `Unknown`, for which the assembler
uses the number 63 (R53, R61). -/
def mnemonicInstr (m : List Char) (o : Operand) : Instr :=
  if m = ['N', 'O', 'P'] then .nop o
  else if m = ['L', 'D', 'A'] then .lda o
  else if m = ['A', 'N', 'D'] then .and o
  else if m = ['O', 'R', 'A'] then .ora o
  else if m = ['X', 'O', 'R'] then .xor o
  else if m = ['I', 'N', 'V', 'E', 'R', 'T'] then .invert o
  else if m = ['J', 'M', 'P'] then .jmp o
  else if m = ['J', 'Z'] then .jz o
  else if m = ['J', 'C'] then .jc o
  else if m = ['R', 'L', 'C'] then .rlc o
  else if m = ['R', 'R', 'C'] then .rrc o
  else if m = ['S', 'T', 'O', 'R', 'E'] then .store o
  else if m = ['M', 'O', 'V', 'E'] then .move o
  else if m = ['D', 'E', 'C'] then .dec o
  else if m = ['I', 'N', 'C'] then .inc o
  else if m = ['H', 'A', 'L', 'T'] then .halt o
  else .unknown32to63 63 o

/-- The opcode number of a mnemonic string (R63): the number of its folded name, 63 for any other string. -/
def opcodeOfText (m : List Char) : OpcodeNum := (mnemonicNumbers.lookup (foldMnemonic m)).getD 63

/-- The value of a hexadecimal digit, either case (R54; lower case is 93 G2). -/
def hexDigit (c : Char) : Option Nat :=
  if '0'.toNat ≤ c.toNat ∧ c.toNat ≤ '9'.toNat then some (c.toNat - '0'.toNat)
  else if 'A'.toNat ≤ c.toNat ∧ c.toNat ≤ 'F'.toNat then some (c.toNat - 'A'.toNat + 10)
  else if 'a'.toNat ≤ c.toNat ∧ c.toNat ≤ 'f'.toNat then some (c.toNat - 'a'.toNat + 10)
  else none

/-- The value of one or two hexadecimal digits (R54, first case). -/
def hexDigits : List Char → Option Byte
  | [a] => (hexDigit a).map (fun n => BitVec.ofNat 8 n)
  | [a, b] =>
    match hexDigit a, hexDigit b with
    | some m, some n => some (BitVec.ofNat 8 (16 * m + n))
    | _, _ => none
  | _ => none

/-- `ParseHexByte` of R54: the value, or none for Malformed. A string of one or two digits has its value in base
16 whatever the parameter says. R54 speaks of non-empty strings; DESIGN CHOICE (log entry 2, safe): the empty one
is left to the parameter too. -/
def parseHexByte (ext : HexParseExt) (s : List Char) : Option Byte :=
  match hexDigits s with
  | some b => some b
  | none => ext s

/-- Operand status and byte from the operand token (R55); the byte is 0x00 where there is no value (R63). -/
def operandOfText (ext : HexParseExt) (token : Option (List Char)) : Operand :=
  match token with
  | none => { status := .absent, value := 0x00 }
  | some s =>
    match parseHexByte ext s with
    | some b => { status := .valid, value := b }
    | none => { status := .malformed, value := 0x00 }

/-- The abstract instruction that R53 to R55 give for a mnemonic string and an optional operand string. -/
def instrOfText (ext : HexParseExt) (m : List Char) (token : Option (List Char)) : Instr :=
  mnemonicInstr (foldMnemonic m) (operandOfText ext token)

/-- The assembler of R63, for one instruction text. -/
def assemble (ext : HexParseExt) (m : List Char) (token : Option (List Char)) : InstrWord :=
  let o := operandOfText ext token
  packWord (opcodeOfText m) o.status.pBit o.status.vBit o.value

/-! ### Several instructions (R52) and the tokens of one line (92 D20; DESIGN CHOICE, log entry 11) -/

/-- The pieces of a text between separators. -/
def splitAtSep (sep : Char → Bool) : List Char → List (List Char)
  | [] => [[]]
  | c :: cs =>
    match splitAtSep sep cs with
    | [] => [[]]
    | piece :: pieces => if sep c then [] :: piece :: pieces else (c :: piece) :: pieces

/-- What one piece of assembly text is. -/
inductive SourceLine where
  /-- A blank, skipped without invoking the engine (R52). -/
  | blank
  /-- One mnemonic and an optional operand (R52). -/
  | instruction (m : List Char) (token : Option (List Char))
  /-- Text that has no instruction in this spec (93 U12): a third token, a tab, a leading blank. DESIGN CHOICE (log
  entry 11): a trailing blank and the other control characters below 0x20 are refused too. -/
  | refused
  deriving DecidableEq, Repr

/-- Reading one piece: tokens are separated by one or more spaces (92 D20). DESIGN CHOICE (log entry 11): the
characters with codes below 0x20 are refused; every other one but the space, DEL (0x7F), the controls 0x80 to 0x9F
and all that is not ASCII among them, is a token character, so that it makes a mnemonic unknown (R53) and an operand
malformed unless `HEX_PARSE_EXT` holds it (R54). -/
def readLine (l : List Char) : SourceLine :=
  if l.all (fun c => c == ' ') then .blank
  else if l.any (fun c => decide (c.toNat < 32)) || l.head? == some ' ' || l.getLast? == some ' ' then .refused
  else
    match (splitAtSep (fun c => c == ' ') l).filter (fun t => !t.isEmpty) with
    | [m] => .instruction m none
    | [m, s] => .instruction m (some s)
    | _ => .refused

/-- The words of a list of pieces; none if one of them is refused. -/
def assembleLines (ext : HexParseExt) : List (List Char) → Option (List InstrWord)
  | [] => some []
  | l :: ls =>
    match readLine l with
    | .blank => assembleLines ext ls
    | .instruction m token => (assembleLines ext ls).map (fun ws => assemble ext m token :: ws)
    | .refused => none

/-- The words of an assembly text, "one or more such instructions joined by `;` or newlines" (R52). -/
def assembleSource (ext : HexParseExt) (src : List Char) : Option (List InstrWord) :=
  assembleLines ext (splitAtSep (fun c => c == ';' || c == '\n') src)

end Sys2Proof
end

