-- ==== Sys2Proof/Safety.lean ====
section
/-! DEFINITION. Safety.lean: the terms claims are stated in: what a step keeps, what a word's fields say in
arithmetic, the complete fault table (60_exceptions.md R134), and the invariants. -/

namespace Sys2Proof.Machine

/-! ### What an instruction keeps and writes, between the states before and after it -/

/-- Everything that is not the datapath's state or the step's answer is as before. -/
def EnvKept (s t : State) : Prop := t.params = s.params ∧ t.rst = s.rst ∧ t.seq = s.seq

/-- Every cell of memory reads as before. -/
def CellsKept (s t : State) : Prop := ∀ j : CellAddr, t.cpu.cell j = s.cpu.cell j

/-- Both flags are as before. -/
def FlagsKept (s t : State) : Prop := t.cpu.cf = s.cpu.cf ∧ t.cpu.zf = s.cpu.zf

/-- The accumulator is as before. -/
def AccKept (s t : State) : Prop := t.cpu.acc = s.cpu.acc

/-- `PC' = (PC + 1) mod 256`. -/
def PcPlusOne (s t : State) : Prop := t.cpu.pc.toNat = (s.cpu.pc.toNat + 1) % 256

/-- `PC' = Adv(PC)` of R7: the parameter decides. -/
def PcAdvanced (s t : State) : Prop :=
  (s.params.pcAdvanceAll = false → t.cpu.pc = s.cpu.pc) ∧ (s.params.pcAdvanceAll = true → PcPlusOne s t)

/-- The instruction `i` in the state `s` raises the fault `k`: the step answers the kind, and everything else
is as it was (R81, R136). -/
def Raises (i : Instr) (s : State) (k : FaultKind) : Prop := exec i s = .next { s with outcome := .fault k }

/-! ### One component exchanged, for claims that an instruction does not read it -/

/-- The state with another zero flag. -/
def State.setZf (s : State) (b : Bool) : State := { s with cpu := { s.cpu with zf := b } }

/-- The state with another carry flag. -/
def State.setCf (s : State) (b : Bool) : State := { s with cpu := { s.cpu with cf := b } }

/-- The state with another accumulator. -/
def State.setAcc (s : State) (a : Byte) : State := { s with cpu := { s.cpu with acc := a } }

/-- The state with another memory. -/
def State.setMem (s : State) (m : Memory) : State := { s with cpu := { s.cpu with mem := m } }

/-! ### The fields of a word, in arithmetic (R58, R60) -/

/-- `opc` is `n`: the words `n * 1024` to `n * 1024 + 1023`. -/
def HasOpcode (w : InstrWord) (n : Nat) : Prop := w.toNat / 1024 = n

/-- The operand fields are those that R60 reads from the word. -/
def HasOperand (w : InstrWord) (o : Operand) : Prop :=
  o.value.toNat = w.toNat % 256 ∧
  (o.status = .absent ↔ w.toNat / 512 % 2 = 0) ∧
  (o.status = .valid ↔ w.toNat / 512 % 2 = 1 ∧ w.toNat / 256 % 2 = 1) ∧
  (o.status = .malformed ↔ w.toNat / 512 % 2 = 1 ∧ w.toNat / 256 % 2 = 0)

/-- The words with opcode number `n` decode to the instruction `mk`, with the word's operand fields. -/
def OpcodeSelects (n : Nat) (mk : Operand → Instr) : Prop :=
  ∀ w, HasOpcode w n → ∃ o, decode w = mk o ∧ HasOperand w o

/-! ### Kinds of instruction (R8, R51) -/

/-- The six whose operand is a memory address (R97). -/
def MemoryAddressed (mk : Operand → Instr) : Prop :=
  mk = .lda ∨ mk = .move ∨ mk = .and ∨ mk = .ora ∨ mk = .xor ∨ mk = .store

/-- The three whose operand is a jump target (R105). -/
def Jump (mk : Operand → Instr) : Prop := mk = .jmp ∨ mk = .jz ∨ mk = .jc

/-- The seven that take no operand (R62). -/
def TakesNoOperand (mk : Operand → Instr) : Prop :=
  mk = .nop ∨ mk = .invert ∨ mk = .rlc ∨ mk = .rrc ∨ mk = .inc ∨ mk = .dec ∨ mk = .halt

/-- The five that read a cell (R32). -/
def ReadsMemory (mk : Operand → Instr) : Prop :=
  mk = .lda ∨ mk = .move ∨ mk = .and ∨ mk = .ora ∨ mk = .xor

/-- The eleven whose effect on `PC` is `Adv(PC)` (R6, R13). -/
def AdvancesByParameter (mk : Operand → Instr) : Prop :=
  mk = .lda ∨ mk = .move ∨ mk = .and ∨ mk = .ora ∨ mk = .xor ∨ mk = .invert ∨ mk = .store ∨
  mk = .rlc ∨ mk = .rrc ∨ mk = .inc ∨ mk = .dec

/-- The instruction is HALT. -/
def isHalt : Instr → Bool
  | .halt _ => true
  | _ => false

/-- The instruction is a STORE. -/
def isStore : Instr → Bool
  | .store _ => true
  | _ => false

/-- The instruction is a rotate, the only writers of `CF` (R16, R18). -/
def isRotate : Instr → Bool
  | .rlc _ => true
  | .rrc _ => true
  | _ => false

/-- The fault of a required operand, if it has one (R132). -/
def missingOperandFault (o : Operand) : Option FaultKind :=
  if o.status = .valid then none else some .malformedOperand

/-- The fault of a required memory address, if it has one (R132, R133). -/
def addressFault (o : Operand) : Option FaultKind :=
  if o.status = .valid then (if 15 < o.value.toNat then some .addressOutOfRange else none)
  else some .malformedOperand

/-- R134, the complete table of which instruction raises which fault. It looks at the instruction alone. -/
def faultOf : Instr → Option FaultKind
  | .nop _ => none
  | .lda o => addressFault o
  | .and o => addressFault o
  | .ora o => addressFault o
  | .xor o => addressFault o
  | .invert _ => none
  | .jmp o => missingOperandFault o
  | .jz o => missingOperandFault o
  | .jc o => missingOperandFault o
  | .rlc _ => none
  | .rrc _ => none
  | .store o => addressFault o
  | .move o => addressFault o
  | .dec _ => none
  | .inc _ => none
  | .halt _ => none
  | .unknown16to31 _ _ => some .unknownInstruction
  | .unknown32to63 _ _ => some .unknownInstruction

/-- The faults of a memory-addressed instruction, as R97 states them. -/
def FaultsAsMemoryAddressed (mk : Operand → Instr) : Prop :=
  ∀ s o, (o.status ≠ .valid → Raises (mk o) s .malformedOperand) ∧
    (o.status = .valid → 15 < o.value.toNat → Raises (mk o) s .addressOutOfRange)

/-- The faults of a jump, as R105 states them. -/
def FaultsAsJump (mk : Operand → Instr) : Prop :=
  ∀ s o, o.status ≠ .valid → Raises (mk o) s .malformedOperand

/-! ### Invariants -/

/-- The memory is in its canonical form. -/
def State.MemCanonical (s : State) : Prop := Memory.wf s.cpu.mem = true

/-- The sequencer's list of outcomes says what R123 and R124 say: a Halt entry can only be the last one, and the
sequencer has stopped exactly when the last entry is one. -/
def Sequencer.Consistent (q : Sequencer) : Prop :=
  (∀ r ∈ q.reports.dropLast, r.outcome ≠ .halt) ∧
  (q.stopped = true ↔ ∃ r, q.reports.getLast? = some r ∧ r.outcome = .halt)

end Sys2Proof.Machine
end

