-- ==== Sys2Proof/Certificates/Slice0/Obligations.lean ====
section
/-! DEFINITION. Certificates/Slice0/Obligations.lean: the statements for the provers. -/

open Sys2Proof Sys2Proof.Machine

/-! ### Reset and the step -/

/-- R21: every component of the datapath is zero or false after reset. -/
def Obligations.ResetLeavesEverythingZero : Prop :=
  State.reset.cpu.acc.toNat = 0 ∧ State.reset.cpu.pc.toNat = 0 ∧ State.reset.cpu.cf = false ∧
  State.reset.cpu.zf = false ∧ ∀ j : CellAddr, (State.reset.cpu.cell j).toNat = 0

/-- R150, R151, 92 D1, D14: a step with the reset input set gives every component of the datapath its reset
value, whatever it was. -/
def Obligations.ResetInputZeroesTheDatapath : Prop :=
  ∀ s, s.rst = true → ∃ t, step s = .next t ∧ t.cpu.acc.toNat = 0 ∧ t.cpu.pc.toNat = 0 ∧ t.cpu.cf = false ∧
    t.cpu.zf = false ∧ ∀ j : CellAddr, (t.cpu.cell j).toNat = 0

/-- R80, R123: with the reset input clear and a word presented, a step executes the word's instruction and hands
its outcome to the sequencer. That the sequencer's entry names the instruction R124 says of a fault entry, the model
of every entry (log entry 4, DEDUCED). -/
def Obligations.StepExecutesThePresentedWord : Prop :=
  ∀ s w rest i t, s.rst = false → s.seq.stopped = false → s.seq.pending = w :: rest → decode w = i →
    exec i s = .next t →
    ∃ u, step s = .next u ∧ u.cpu = t.cpu ∧ u.outcome = t.outcome ∧ u.params = t.params ∧ u.rst = t.rst ∧
      u.seq.pending = rest ∧ (u.seq.stopped = true ↔ t.outcome = .halt) ∧
      u.seq.reports = s.seq.reports ++ [{ instr := i, outcome := t.outcome }]

/-- 92 D1 (log entry 6, the model's reading): with nothing presented nothing changes. -/
def Obligations.StepWithNothingPresentedChangesNothing : Prop :=
  ∀ s, s.rst = false → (s.seq.stopped = true ∨ s.seq.pending = []) → step s = .next s

/-- R10, R80, R139: the step is defined on every state and every instruction; nothing stops the machine. -/
def Obligations.EveryStepAnswersANextState : Prop :=
  (∀ i s, ∃ t, exec i s = .next t) ∧ (∀ s, ∃ t, step s = .next t)

/-! ### Encoding -/

/-- The nine examples of R63, the words of three instruction rules and one of 95 V94, and what they decode to. -/
def Obligations.SampleWordsDecode : Prop :=
  decode 0x0000 = .nop ⟨.absent, 0x00⟩ ∧ decode 0x0307 = .nop ⟨.valid, 0x07⟩ ∧
  decode 0x0705 = .lda ⟨.valid, 0x05⟩ ∧ decode 0x0400 = .lda ⟨.absent, 0x00⟩ ∧
  decode 0x0A00 = .and ⟨.malformed, 0x00⟩ ∧ decode 0x2F1F = .store ⟨.valid, 0x1F⟩ ∧
  decode 0x1F0A = .jz ⟨.valid, 0x0A⟩ ∧ decode 0x2800 = .rrc ⟨.absent, 0x00⟩ ∧
  decode 0x3800 = .inc ⟨.absent, 0x00⟩ ∧ decode 0x3C00 = .halt ⟨.absent, 0x00⟩ ∧
  decode 0x4701 = .unknown16to31 17 ⟨.valid, 0x01⟩ ∧ decode 0xFC00 = .unknown32to63 63 ⟨.absent, 0x00⟩ ∧
  decode 0xFF01 = .unknown32to63 63 ⟨.valid, 0x01⟩

/-- R60: decoding reads the operand fields as the rule says, the opcode number alone selects the instruction, and
the 18 rows of the opcode table partition the words. -/
def Obligations.DecodeReadsTheFieldsAndTheRowsPartition : Prop :=
  OpcodeSelects 0 .nop ∧ OpcodeSelects 1 .lda ∧ OpcodeSelects 2 .and ∧ OpcodeSelects 3 .ora ∧
  OpcodeSelects 4 .xor ∧ OpcodeSelects 5 .invert ∧ OpcodeSelects 6 .jmp ∧ OpcodeSelects 7 .jz ∧
  OpcodeSelects 8 .jc ∧ OpcodeSelects 9 .rlc ∧ OpcodeSelects 10 .rrc ∧ OpcodeSelects 11 .store ∧
  OpcodeSelects 12 .move ∧ OpcodeSelects 13 .dec ∧ OpcodeSelects 14 .inc ∧ OpcodeSelects 15 .halt ∧
  (∀ w : InstrWord, 16 ≤ w.toNat / 1024 → w.toNat / 1024 ≤ 31 →
    ∃ opc o, decode w = .unknown16to31 opc o ∧ opc.toNat = w.toNat / 1024 ∧ HasOperand w o) ∧
  (∀ w : InstrWord, 32 ≤ w.toNat / 1024 →
    ∃ opc o, decode w = .unknown32to63 opc o ∧ opc.toNat = w.toNat / 1024 ∧ HasOperand w o) ∧
  opcodeTable.length = 18 ∧
  (∀ w, (decode w).row ∈ opcodeTable ∧ ∀ r ∈ opcodeTable, r.selects w = true ↔ r = (decode w).row)

/-- R58, R59: the word of a well-formed instruction is `opc * 1024 + P * 512 + V * 256 + opd`, with the opcode
numbers of R59. -/
def Obligations.EncodedWordIsTheSumOfItsFields : Prop :=
  (∀ i : Instr, i.wf = true →
    (encode i).toNat = i.opcode.toNat * 1024 + (if i.operand.status = .absent then 0 else 512) +
      (if i.operand.status = .valid then 256 else 0) + i.operand.value.toNat) ∧
  (∀ o, (Instr.nop o).opcode.toNat = 0 ∧ (Instr.lda o).opcode.toNat = 1 ∧ (Instr.and o).opcode.toNat = 2 ∧
    (Instr.ora o).opcode.toNat = 3 ∧ (Instr.xor o).opcode.toNat = 4 ∧ (Instr.invert o).opcode.toNat = 5 ∧
    (Instr.jmp o).opcode.toNat = 6 ∧ (Instr.jz o).opcode.toNat = 7 ∧ (Instr.jc o).opcode.toNat = 8 ∧
    (Instr.rlc o).opcode.toNat = 9 ∧ (Instr.rrc o).opcode.toNat = 10 ∧ (Instr.store o).opcode.toNat = 11 ∧
    (Instr.move o).opcode.toNat = 12 ∧ (Instr.dec o).opcode.toNat = 13 ∧ (Instr.inc o).opcode.toNat = 14 ∧
    (Instr.halt o).opcode.toNat = 15) ∧
  (∀ opc o, (Instr.unknown16to31 opc o).wf = true → 16 ≤ (Instr.unknown16to31 opc o).opcode.toNat) ∧
  (∀ opc o, (Instr.unknown32to63 opc o).wf = true → 32 ≤ (Instr.unknown32to63 opc o).opcode.toNat)

/-- Decoding the word of a well-formed instruction gives the instruction back, with every operand field. -/
def Obligations.DecodeOfEncodeIsTheInstruction : Prop :=
  ∀ i : Instr, i.wf = true → decode (encode i) = i

/-- Every word decodes to a well-formed instruction, and encoding that gives the word back but for the bit `V`
where `P = 0`, which decoding ignores (R60). -/
def Obligations.EncodeOfDecodeIsTheWord : Prop :=
  ∀ w : InstrWord, (decode w).wf = true ∧
    (w.toNat / 512 % 2 = 1 ∨ w.toNat / 256 % 2 = 0 → encode (decode w) = w) ∧
    (w.toNat / 512 % 2 = 0 → w.toNat / 256 % 2 = 1 → (encode (decode w)).toNat + 256 = w.toNat)

/-- R62: the operand fields of an instruction that takes no operand, and of an unknown one, have no effect. -/
def Obligations.IgnoredOperandFieldsHaveNoEffect : Prop :=
  (∀ mk, TakesNoOperand mk → ∀ o o' s, exec (mk o) s = exec (mk o') s) ∧
  (∀ opc o o' s, exec (.unknown16to31 opc o) s = exec (.unknown16to31 opc o') s) ∧
  (∀ opc o o' s, exec (.unknown32to63 opc o) s = exec (.unknown32to63 opc o') s)

/-- R50, 93 U9: for every instruction, the operand byte has a meaning only when the operand is valid. -/
def Obligations.OperandByteCountsOnlyWhenValid : Prop :=
  ∀ (i : Instr) (o : Operand) (s : State), i.operand.status ≠ .valid → o.status = i.operand.status →
    exec (i.withOperand o) s = exec i s

/-! ### The instructions: encoding, completion with result and frame, faults -/

/-- R83. -/
def Obligations.NopAdvancesPcOnly : Prop :=
  OpcodeSelects 0 .nop ∧
  ∀ s o, ∃ t, exec (.nop o) s = .next t ∧ t.outcome = .ok ∧ PcPlusOne s t ∧ AccKept s t ∧ FlagsKept s t ∧
    CellsKept s t ∧ EnvKept s t

/-- R90. -/
def Obligations.LdaLoadsTheAddressedCell : Prop :=
  OpcodeSelects 1 .lda ∧ FaultsAsMemoryAddressed .lda ∧
  ∀ s o (ea : CellAddr), o.status = .valid → o.value.toNat = ea.toNat →
    ∃ t, exec (.lda o) s = .next t ∧ t.outcome = .ok ∧ t.cpu.acc = s.cpu.cell ea ∧ PcAdvanced s t ∧
      FlagsKept s t ∧ CellsKept s t ∧ EnvKept s t

/-- R91. -/
def Obligations.MoveIsLdaUnderASecondMnemonic : Prop :=
  OpcodeSelects 12 .move ∧ FaultsAsMemoryAddressed .move ∧
  (∀ s o, exec (.move o) s = exec (.lda o) s) ∧
  ∀ s o (ea : CellAddr), o.status = .valid → o.value.toNat = ea.toNat →
    ∃ t, exec (.move o) s = .next t ∧ t.outcome = .ok ∧ t.cpu.acc = s.cpu.cell ea ∧ PcAdvanced s t ∧
      FlagsKept s t ∧ CellsKept s t ∧ EnvKept s t

/-- R92: bit `k` of the result is 1 exactly when bit `k` of both inputs is 1. -/
def Obligations.AndIsTheBitwiseAndWithTheCell : Prop :=
  OpcodeSelects 2 .and ∧ FaultsAsMemoryAddressed .and ∧
  ∀ s o (ea : CellAddr), o.status = .valid → o.value.toNat = ea.toNat →
    ∃ t, exec (.and o) s = .next t ∧ t.outcome = .ok ∧
      (∀ k < 8, t.cpu.acc.getLsbD k = true ↔
        s.cpu.acc.getLsbD k = true ∧ (s.cpu.cell ea).getLsbD k = true) ∧
      PcAdvanced s t ∧ FlagsKept s t ∧ CellsKept s t ∧ EnvKept s t

/-- R93 with the truth table of R98. The table is the spec's own addition from general knowledge (93 G3,
log entry 12, PRESUMED). -/
def Obligations.OraIsTheBitwiseOrWithTheCell : Prop :=
  OpcodeSelects 3 .ora ∧ FaultsAsMemoryAddressed .ora ∧
  ∀ s o (ea : CellAddr), o.status = .valid → o.value.toNat = ea.toNat →
    ∃ t, exec (.ora o) s = .next t ∧ t.outcome = .ok ∧
      (∀ k < 8, t.cpu.acc.getLsbD k = true ↔
        s.cpu.acc.getLsbD k = true ∨ (s.cpu.cell ea).getLsbD k = true) ∧
      PcAdvanced s t ∧ FlagsKept s t ∧ CellsKept s t ∧ EnvKept s t

/-- R94 with the truth table of R98. The table is the spec's own addition from general knowledge (93 G3,
log entry 12, PRESUMED). -/
def Obligations.XorIsTheBitwiseExclusiveOrWithTheCell : Prop :=
  OpcodeSelects 4 .xor ∧ FaultsAsMemoryAddressed .xor ∧
  ∀ s o (ea : CellAddr), o.status = .valid → o.value.toNat = ea.toNat →
    ∃ t, exec (.xor o) s = .next t ∧ t.outcome = .ok ∧
      (∀ k < 8, t.cpu.acc.getLsbD k = true ↔
        ¬ (s.cpu.acc.getLsbD k = true ↔ (s.cpu.cell ea).getLsbD k = true)) ∧
      PcAdvanced s t ∧ FlagsKept s t ∧ CellsKept s t ∧ EnvKept s t

/-- R95: `~A = 255 - A`. -/
def Obligations.InvertComplementsTheAccumulator : Prop :=
  OpcodeSelects 5 .invert ∧
  ∀ s o, ∃ t, exec (.invert o) s = .next t ∧ t.outcome = .ok ∧ t.cpu.acc.toNat = 255 - s.cpu.acc.toNat ∧
    PcAdvanced s t ∧ FlagsKept s t ∧ CellsKept s t ∧ EnvKept s t

/-- R96: the address stored to is the one the meaning computes, `memoryAddress o`, and it is the operand. -/
def Obligations.StoreWritesTheAddressedCellOnly : Prop :=
  OpcodeSelects 11 .store ∧ FaultsAsMemoryAddressed .store ∧
  (∀ (o : Operand) (ea : CellAddr), memoryAddress o = .ok ea ↔ o.status = .valid ∧ o.value.toNat = ea.toNat) ∧
  ∀ s o ea, memoryAddress o = .ok ea →
    ∃ t, exec (.store o) s = .next t ∧ t.outcome = .ok ∧ t.cpu.cell ea = s.cpu.acc ∧
      (∀ j : CellAddr, j ≠ ea → t.cpu.cell j = s.cpu.cell j) ∧
      AccKept s t ∧ PcAdvanced s t ∧ FlagsKept s t ∧ EnvKept s t

/-- R100. -/
def Obligations.JmpWritesTheTargetToPc : Prop :=
  OpcodeSelects 6 .jmp ∧ FaultsAsJump .jmp ∧
  ∀ s o, o.status = .valid →
    ∃ t, exec (.jmp o) s = .next t ∧ t.outcome = .ok ∧ t.cpu.pc = o.value ∧
      AccKept s t ∧ FlagsKept s t ∧ CellsKept s t ∧ EnvKept s t

/-- R101. -/
def Obligations.JzJumpsOnTheZeroFlag : Prop :=
  OpcodeSelects 7 .jz ∧ FaultsAsJump .jz ∧
  ∀ s o, o.status = .valid →
    ∃ t, exec (.jz o) s = .next t ∧ t.outcome = .ok ∧ (s.cpu.zf = true → t.cpu.pc = o.value) ∧
      (s.cpu.zf = false → PcPlusOne s t) ∧ AccKept s t ∧ FlagsKept s t ∧ CellsKept s t ∧ EnvKept s t

/-- R102. -/
def Obligations.JcJumpsOnTheCarryFlag : Prop :=
  OpcodeSelects 8 .jc ∧ FaultsAsJump .jc ∧
  ∀ s o, o.status = .valid →
    ∃ t, exec (.jc o) s = .next t ∧ t.outcome = .ok ∧ (s.cpu.cf = true → t.cpu.pc = o.value) ∧
      (s.cpu.cf = false → PcPlusOne s t) ∧ AccKept s t ∧ FlagsKept s t ∧ CellsKept s t ∧ EnvKept s t

/-- R110: `A' = ((A * 2) mod 256) + A[7]`, `CF' = A[7]`. -/
def Obligations.RlcRotatesLeftIntoTheCarry : Prop :=
  OpcodeSelects 9 .rlc ∧
  ∀ s o, ∃ t, exec (.rlc o) s = .next t ∧ t.outcome = .ok ∧
    t.cpu.acc.toNat = s.cpu.acc.toNat * 2 % 256 + s.cpu.acc.toNat / 128 ∧
    (t.cpu.cf = true ↔ s.cpu.acc.toNat / 128 = 1) ∧ t.cpu.zf = s.cpu.zf ∧
    PcAdvanced s t ∧ CellsKept s t ∧ EnvKept s t

/-- R111: `A' = (A div 2) + 128 * A[0]`, `CF' = A[0]`. -/
def Obligations.RrcRotatesRightIntoTheCarry : Prop :=
  OpcodeSelects 10 .rrc ∧
  ∀ s o, ∃ t, exec (.rrc o) s = .next t ∧ t.outcome = .ok ∧
    t.cpu.acc.toNat = s.cpu.acc.toNat / 2 + 128 * (s.cpu.acc.toNat % 2) ∧
    (t.cpu.cf = true ↔ s.cpu.acc.toNat % 2 = 1) ∧ t.cpu.zf = s.cpu.zf ∧
    PcAdvanced s t ∧ CellsKept s t ∧ EnvKept s t

/-- R112: modulo 256, no flag written. -/
def Obligations.IncAddsOneModulo256 : Prop :=
  OpcodeSelects 14 .inc ∧
  ∀ s o, ∃ t, exec (.inc o) s = .next t ∧ t.outcome = .ok ∧ t.cpu.acc.toNat = (s.cpu.acc.toNat + 1) % 256 ∧
    PcAdvanced s t ∧ FlagsKept s t ∧ CellsKept s t ∧ EnvKept s t

/-- R113: modulo 256 (`(0 - 1) mod 256 = 255`), no flag written. -/
def Obligations.DecSubtractsOneModulo256 : Prop :=
  OpcodeSelects 13 .dec ∧
  ∀ s o, ∃ t, exec (.dec o) s = .next t ∧ t.outcome = .ok ∧
    (t.cpu.acc.toNat : Int) = ((s.cpu.acc.toNat : Int) - 1) % 256 ∧
    PcAdvanced s t ∧ FlagsKept s t ∧ CellsKept s t ∧ EnvKept s t

/-- R120: nothing is written, the outcome is Halt, at either value of the parameter. -/
def Obligations.HaltWritesNothingAndSignals : Prop :=
  OpcodeSelects 15 .halt ∧
  ∀ s o, ∃ t, exec (.halt o) s = .next t ∧ t.outcome = .halt ∧ t.cpu = s.cpu ∧ EnvKept s t

/-- R61: every word with an opcode number of 16 or more raises UnknownInstruction and changes nothing, whatever
its operand fields hold; both constructors of unknown instructions do, with every field. -/
def Obligations.UnknownOpcodesRaiseUnknownInstruction : Prop :=
  (∀ w : InstrWord, 16 ≤ w.toNat / 1024 → ∀ s, Raises (decode w) s .unknownInstruction) ∧
  (∀ opc o s, Raises (.unknown16to31 opc o) s .unknownInstruction) ∧
  (∀ opc o s, Raises (.unknown32to63 opc o) s .unknownInstruction)

/-! ### Faults -/

/-- R33: an address is valid exactly up to 0x0F, equivalently when its high four bits are 0, and then the cell
accessed is `M[opd[3:0]]`; above that the fault is raised and no state is written. -/
def Obligations.AddressValidation : Prop :=
  (∀ b : Byte, b.toNat ≤ 15 ↔ b.extractLsb' 4 4 = 0) ∧
  (∀ mk, MemoryAddressed mk → ∀ s o, o.status = .valid →
    (o.value.toNat ≤ 15 → memoryAddress o = .ok (o.value.extractLsb' 0 4) ∧
      ∃ t, exec (mk o) s = .next t ∧ t.outcome = .ok) ∧
    (15 < o.value.toNat → Raises (mk o) s .addressOutOfRange)) ∧
  (∀ mk, ReadsMemory mk → ∀ s s' o, o.status = .valid → o.value.toNat ≤ 15 → s'.params = s.params →
    s'.cpu.acc = s.cpu.acc → s'.cpu.cell (o.value.extractLsb' 0 4) = s.cpu.cell (o.value.extractLsb' 0 4) →
    ∃ t t', exec (mk o) s = .next t ∧ exec (mk o) s' = .next t' ∧ t'.cpu.acc = t.cpu.acc) ∧
  (∀ s o, o.status = .valid → o.value.toNat ≤ 15 →
    ∃ t, exec (.store o) s = .next t ∧ t.cpu.cell (o.value.extractLsb' 0 4) = s.cpu.acc ∧
      ∀ j : CellAddr, j ≠ o.value.extractLsb' 0 4 → t.cpu.cell j = s.cpu.cell j)

/-- R35: a jump target is not checked against the memory window: every byte is accepted. -/
def Obligations.JumpTargetsAreNotValidated : Prop :=
  (∀ mk, Jump mk → ∀ s o, o.status = .valid → ∃ t, exec (mk o) s = .next t ∧ t.outcome = .ok) ∧
  (∀ s o, o.status = .valid → o.value = 0x80 → ∃ t, exec (.jmp o) s = .next t ∧ t.cpu.pc = 0x80)

/-- R132: MalformedOperand is raised exactly by the nine instructions that require an operand, exactly when it is
absent or malformed, and then nothing is substituted for it: the datapath is unchanged. No other instruction, the
unknown ones included, raises it, whatever its operand fields hold. -/
def Obligations.MalformedOperandExactly : Prop :=
  (∀ mk, MemoryAddressed mk ∨ Jump mk → ∀ s o, ∃ t, exec (mk o) s = .next t ∧
    (t.outcome = .fault .malformedOperand ↔ o.status = .absent ∨ o.status = .malformed) ∧
    (t.outcome = .fault .malformedOperand → t.cpu = s.cpu)) ∧
  (∀ i s, (∀ mk, MemoryAddressed mk ∨ Jump mk → ∀ o, i ≠ mk o) →
    ∃ t, exec i s = .next t ∧ t.outcome ≠ .fault .malformedOperand) ∧
  (∀ w : InstrWord, (decode w).operand.status = .valid ↔ w.toNat / 512 % 2 = 1 ∧ w.toNat / 256 % 2 = 1)

/-- R133: AddressOutOfRange is raised exactly by the six memory-addressed instructions, exactly for a valid operand
above 0x0F, and the access does not happen. No other instruction raises it: not JMP, JZ or JC, not one that takes
no operand, not an unknown one. -/
def Obligations.AddressOutOfRangeExactly : Prop :=
  (∀ mk, MemoryAddressed mk → ∀ s o, ∃ t, exec (mk o) s = .next t ∧
    (t.outcome = .fault .addressOutOfRange ↔ o.status = .valid ∧ 15 < o.value.toNat) ∧
    (t.outcome = .fault .addressOutOfRange → t.cpu = s.cpu)) ∧
  (∀ i s, (∀ mk, MemoryAddressed mk → ∀ o, i ≠ mk o) →
    ∃ t, exec i s = .next t ∧ t.outcome ≠ .fault .addressOutOfRange)

/-- R134 (and R131): which instruction raises which fault, complete; `faultOf` is the rule's table. -/
def Obligations.FaultTableIsComplete : Prop :=
  ∀ i s, ∃ t, exec i s = .next t ∧ ∀ k, t.outcome = .fault k ↔ faultOf i = some k

/-- R81: a step whose outcome is a fault leaves every component unchanged. -/
def Obligations.AFaultChangesNothing : Prop :=
  ∀ i s t k, exec i s = .next t → t.outcome = .fault k →
    t.cpu.acc = s.cpu.acc ∧ t.cpu.pc = s.cpu.pc ∧ t.cpu.mem = s.cpu.mem ∧ t.cpu.cf = s.cpu.cf ∧
    t.cpu.zf = s.cpu.zf ∧ CellsKept s t ∧ EnvKept s t

/-- R140: what the outputs `fault[1:0]` and `halt` show after an instruction. -/
def Obligations.OutputsShowTheOutcome : Prop :=
  ∀ i s, ∃ t, exec i s = .next t ∧
    (faultOf i = none → t.faultPort = 0) ∧
    (faultOf i = some .unknownInstruction → t.faultPort = 1) ∧
    (faultOf i = some .malformedOperand → t.faultPort = 2) ∧
    (faultOf i = some .addressOutOfRange → t.faultPort = 3) ∧
    t.haltPort = isHalt i ∧ ¬ (t.haltPort = true ∧ t.faultPort ≠ 0)

/-- R139, R137, R123: after a faulting instruction the run goes on from the unchanged datapath with the next one,
and the report pairs the fault with the instruction. -/
def Obligations.AFaultDoesNotStopTheRun : Prop :=
  ∀ s w rest k, s.rst = false → s.seq.stopped = false → s.seq.pending = w :: rest →
    faultOf (decode w) = some k →
    ∃ t, step s = .next t ∧ t.cpu = s.cpu ∧ t.outcome = .fault k ∧ t.seq.stopped = false ∧
      t.seq.pending = rest ∧ t.seq.reports = s.seq.reports ++ [{ instr := decode w, outcome := .fault k }]

/-! ### Whole-machine rules -/

/-- R15: no instruction writes `ZF`, only JZ reads it, and reset makes it 0. -/
def Obligations.ZeroFlagHasNoWriterAndOneReader : Prop :=
  (∀ i s, ∃ t, exec i s = .next t ∧ t.cpu.zf = s.cpu.zf) ∧
  (∀ i s b, (∀ o, i ≠ .jz o) → ∃ t, exec i s = .next t ∧ exec i (s.setZf b) = .next (t.setZf b)) ∧
  (∀ s : State, s.applyReset.cpu.zf = false)

/-- R16, R18: `CF` is assigned by the rotates from the bit shifted out, every other instruction writes no flag, and
only JC reads it. -/
def Obligations.CarryFlagWritersAndReader : Prop :=
  (∀ i s, ∃ t, exec i s = .next t ∧ t.cpu.zf = s.cpu.zf) ∧
  (∀ s o, ∃ t, exec (.rlc o) s = .next t ∧ t.cpu.cf = s.cpu.acc.getLsbD 7) ∧
  (∀ s o, ∃ t, exec (.rrc o) s = .next t ∧ t.cpu.cf = s.cpu.acc.getLsbD 0) ∧
  (∀ i s, isRotate i = false → ∃ t, exec i s = .next t ∧ t.cpu.cf = s.cpu.cf) ∧
  (∀ i s b, isRotate i = false → (∀ o, i ≠ .jc o) →
    ∃ t, exec i s = .next t ∧ exec i (s.setCf b) = .next (t.setCf b)) ∧
  (∀ i s b, isRotate i = true → exec i (s.setCf b) = exec i s)

/-- R13: what each instruction leaves in `PC`. -/
def Obligations.PcAfterEachInstruction : Prop :=
  (∀ s o, ∃ t, exec (.nop o) s = .next t ∧ PcPlusOne s t) ∧
  (∀ s o, o.status = .valid → ∃ t, exec (.jmp o) s = .next t ∧ t.cpu.pc = o.value) ∧
  (∀ s o, o.status = .valid → ∃ t, exec (.jz o) s = .next t ∧ (s.cpu.zf = true → t.cpu.pc = o.value) ∧
    (s.cpu.zf = false → PcPlusOne s t)) ∧
  (∀ s o, o.status = .valid → ∃ t, exec (.jc o) s = .next t ∧ (s.cpu.cf = true → t.cpu.pc = o.value) ∧
    (s.cpu.cf = false → PcPlusOne s t)) ∧
  (∀ mk, AdvancesByParameter mk → ∀ s o, faultOf (mk o) = none → ∃ t, exec (mk o) s = .next t ∧ PcAdvanced s t) ∧
  (∀ s o, ∃ t, exec (.halt o) s = .next t ∧ t.cpu.pc = s.cpu.pc) ∧
  (∀ i s, faultOf i ≠ none → ∃ t, exec i s = .next t ∧ t.cpu.pc = s.cpu.pc)

/-- R11: who neither reads nor writes the accumulator, who only writes it, and that STORE does not write it. -/
def Obligations.AccumulatorAccess : Prop :=
  (∀ mk : Operand → Instr, mk = .nop ∨ mk = .halt ∨ Jump mk → ∀ o s a,
    ∃ t, exec (mk o) s = .next t ∧ t.cpu.acc = s.cpu.acc ∧ exec (mk o) (s.setAcc a) = .next (t.setAcc a)) ∧
  (∀ mk : Operand → Instr, mk = .lda ∨ mk = .move → ∀ o s a, faultOf (mk o) = none → exec (mk o) (s.setAcc a) = exec (mk o) s) ∧
  (∀ o s, ∃ t, exec (.store o) s = .next t ∧ t.cpu.acc = s.cpu.acc)

/-- R19, R32: only STORE writes memory, and only the five reading instructions read it. -/
def Obligations.MemoryAccess : Prop :=
  (∀ i s, isStore i = false → ∃ t, exec i s = .next t ∧ t.cpu.mem = s.cpu.mem) ∧
  (∀ i s m, isStore i = false → (∀ mk, ReadsMemory mk → ∀ o, i ≠ mk o) →
    ∃ t, exec i s = .next t ∧ exec i (s.setMem m) = .next (t.setMem m)) ∧
  (∀ o s m, ∃ t t', exec (.store o) s = .next t ∧ exec (.store o) (s.setMem m) = .next t' ∧
    t'.outcome = t.outcome ∧ t'.cpu.acc = t.cpu.acc ∧ t'.cpu.pc = t.cpu.pc ∧ t'.cpu.cf = t.cpu.cf ∧
    t'.cpu.zf = t.cpu.zf)

/-- R84, R121: a step depends on the datapath's state, the instruction and the parameter alone: not on an earlier
HALT, an earlier fault, the sequencer or the reset input; and it touches none of those (R9, R25). -/
def Obligations.ExecutionHasNoHistory : Prop :=
  (∀ i s, ∃ t, exec i s = .next t ∧ EnvKept s t) ∧
  ∀ i s s', s'.cpu = s.cpu → s'.params = s.params →
    ∃ t t', exec i s = .next t ∧ exec i s' = .next t' ∧ t'.cpu = t.cpu ∧ t'.outcome = t.outcome

/-- R6, 92 D6: the open parameter decides `PC` after a fault-free data instruction and nothing else. -/
def Obligations.ParameterDecidesPcOnly : Prop :=
  ∀ i s p, ∃ t t', exec i s = .next t ∧ exec i { s with params := p } = .next t' ∧ t'.outcome = t.outcome ∧
    t'.cpu.acc = t.cpu.acc ∧ t'.cpu.mem = t.cpu.mem ∧ t'.cpu.cf = t.cpu.cf ∧ t'.cpu.zf = t.cpu.zf ∧
    ((∀ mk, AdvancesByParameter mk → ∀ o, i ≠ mk o) → t'.cpu.pc = t.cpu.pc)

/-- R103, R12: nothing in the datapath, `PC` and flags included, chooses what the sequencer presents next. -/
def Obligations.TheDatapathDoesNotSteerTheSequencer : Prop :=
  ∀ s s' t t', s'.rst = s.rst → s'.seq.pending = s.seq.pending → s'.seq.stopped = s.seq.stopped →
    step s = .next t → step s' = .next t' →
    t'.seq.pending = t.seq.pending ∧ t'.seq.stopped = t.seq.stopped ∧ t'.presented = t.presented

/-! ### Memory -/

/-- R37: `MemWrite` sets the cell and leaves the other cells, the registers and the flags; a load after a store of
the same cell gives the stored value and leaves the accumulator as it was. -/
def Obligations.MemWriteThenMemRead : Prop :=
  (∀ (c : CpuState) (addr : CellAddr) (v : Byte), (c.setCell addr v).cell addr = v ∧
    (∀ j, j ≠ addr → (c.setCell addr v).cell j = c.cell j) ∧ (c.setCell addr v).acc = c.acc ∧
    (c.setCell addr v).pc = c.pc ∧ (c.setCell addr v).cf = c.cf ∧ (c.setCell addr v).zf = c.zf) ∧
  (∀ s o (ea : CellAddr), o.status = .valid → o.value.toNat = ea.toNat →
    ∃ t u, exec (.store o) s = .next t ∧ exec (.lda o) t = .next u ∧ u.cpu.acc = s.cpu.acc ∧
      u.cpu.cell ea = s.cpu.acc)

/-- The canonical form holds at reset. -/
def Obligations.MemoryIsCanonicalAtReset : Prop := State.reset.MemCanonical

/-- Every step keeps the canonical form of memory. -/
def Obligations.EveryStepKeepsMemoryCanonical : Prop :=
  ∀ s t, s.MemCanonical → step s = .next t → t.MemCanonical

/-- In the canonical form, memories that read alike are equal data. -/
def Obligations.CanonicalMemoriesThatReadAlikeAreEqual : Prop :=
  ∀ s s' : State, s.MemCanonical → s'.MemCanonical → CellsKept s s' → s'.cpu.mem = s.cpu.mem

/-! ### Laws of the arithmetic -/

/-- R114: RLC and RRC undo each other, and the carry after the pair is the bit that wrapped. -/
def Obligations.RotatesUndoEachOther : Prop :=
  ∀ s o o', (∃ t u, exec (.rlc o) s = .next t ∧ exec (.rrc o') t = .next u ∧ u.cpu.acc = s.cpu.acc ∧
      u.cpu.cf = s.cpu.acc.getLsbD 7) ∧
    (∃ t u, exec (.rrc o) s = .next t ∧ exec (.rlc o') t = .next u ∧ u.cpu.acc = s.cpu.acc ∧
      u.cpu.cf = s.cpu.acc.getLsbD 0)

/-- R83, R95, R110 to R113: 256 NOPs, INCs or DECs restore the whole datapath at both values of the parameter; eight
RLCs or RRCs and two INVERTs restore the accumulator; INC and DEC undo each other, flags kept. -/
def Obligations.RepeatedInstructionsComeRound : Prop :=
  ∀ s o o', (∃ t, execTimes (.nop o) 256 s = .next t ∧ t.cpu = s.cpu) ∧
    (∃ t, execTimes (.inc o) 256 s = .next t ∧ t.cpu = s.cpu) ∧
    (∃ t, execTimes (.dec o) 256 s = .next t ∧ t.cpu = s.cpu) ∧
    (∃ t, execTimes (.rlc o) 8 s = .next t ∧ AccKept s t) ∧
    (∃ t, execTimes (.rrc o) 8 s = .next t ∧ AccKept s t) ∧
    (∃ t, execTimes (.invert o) 2 s = .next t ∧ AccKept s t ∧ FlagsKept s t) ∧
    (∃ t u, exec (.inc o) s = .next t ∧ exec (.dec o') t = .next u ∧ AccKept s u ∧ FlagsKept s u) ∧
    (∃ t u, exec (.dec o) s = .next t ∧ exec (.inc o') t = .next u ∧ AccKept s u ∧ FlagsKept s u)

/-! ### Invariants and runs -/

/-- R24: every step keeps `ZF = 0`, reset gives it, and with `ZF = 0` JZ never takes its jump. -/
def Obligations.ZeroFlagStaysClear : Prop :=
  State.reset.cpu.zf = false ∧
  (∀ s t, s.cpu.zf = false → step s = .next t → t.cpu.zf = false) ∧
  (∀ s o, s.cpu.zf = false → o.status = .valid → ∃ t, exec (.jz o) s = .next t ∧ PcPlusOne s t)

/-- The sequencer's list of outcomes is consistent at reset. -/
def Obligations.SequencerIsConsistentAtReset : Prop := State.reset.seq.Consistent

/-- R123, R124: every step keeps the list of outcomes consistent: a Halt entry only at the end, and then, and only
then, the sequencer has stopped. -/
def Obligations.EveryStepKeepsTheSequencerConsistent : Prop :=
  ∀ s t, s.seq.Consistent → step s = .next t → t.seq.Consistent

/-- R123: the rule's loop, line by line: the empty list; an instruction that halts; any other outcome, a fault
included, after which the run goes on. R123 appends the outcome; that each entry names its instruction too R124 says
of a fault entry, the model of every entry (log entry 4, DEDUCED). -/
def Obligations.RunProcessesInstructionsInOrder : Prop :=
  (∀ s, runBatch [] s = .next (s, [])) ∧
  (∀ w rest s t, exec (decode w) s = .next t → t.outcome = .halt →
    runBatch (w :: rest) s = .next (t, [{ instr := decode w, outcome := .halt }])) ∧
  (∀ w rest s t, exec (decode w) s = .next t → t.outcome ≠ .halt → ∃ u reports,
    runBatch rest t = .next (u, reports) ∧
    runBatch (w :: rest) s = .next (u, { instr := decode w, outcome := t.outcome } :: reports))

/-- R124: one entry per executed instruction, in order: the length is that of the list when no HALT is in it, else
the index of the first HALT plus one; entry `k` names instruction `k`. R124 says so of a fault entry, the model of
every entry (log entry 4, DEDUCED). Which entries are faults is the table of R134. -/
def Obligations.RunListsOneOutcomePerExecutedInstruction : Prop :=
  ∀ prog s, ∃ t reports, runBatch prog s = .next (t, reports) ∧
    ((∀ w ∈ prog, isHalt (decode w) = false) → reports.length = prog.length) ∧
    (∀ before w after, prog = before ++ w :: after → isHalt (decode w) = true →
      (∀ v ∈ before, isHalt (decode v) = false) → reports.length = before.length + 1) ∧
    reports.map Report.instr = (prog.map decode).take reports.length ∧
    (∀ r ∈ reports, r.outcome = .halt ↔ isHalt r.instr = true) ∧
    (∀ r ∈ reports, ∀ k, r.outcome = .fault k ↔ faultOf r.instr = some k)

/-- R123, R125: the machine, loaded with a list of instructions and stepped at least once per instruction, does
exactly what the batch entry point `Run` does: the same datapath, the same list of outcomes, and nothing of the
list executed after a HALT. It stays there: the run has ended. `State.load` is the model's (log entry 3, DESIGN
CHOICE), and so are that a step with nothing left to present changes nothing (log entry 6, DEDUCED) and that every entry names
its instruction (log entry 4, DEDUCED). -/
def Obligations.SteppingALoadedMachineIsRun : Prop :=
  ∀ prog s n, s.rst = false → prog.length ≤ n →
    ∃ u t reports, runBatch prog s = .next (u, reports) ∧
      Host.Core.run Sys2Proof.core n (s.load prog) = .next t ∧
      t.cpu = u.cpu ∧ t.outcome = u.outcome ∧ t.params = s.params ∧ t.rst = false ∧
      t.seq.reports = reports ∧ t.seq.pending = prog.drop reports.length ∧
      (t.seq.stopped = true ↔ ∃ r ∈ reports, r.outcome = .halt)

/-! ### The assembler -/

/-- R63: decoding an assembled text gives the abstract instruction of R53 to R55, and the rule's examples. -/
def Obligations.DecodeOfAssembleIsTheTextsInstruction : Prop :=
  (∀ ext m token, decode (assemble ext m token) = instrOfText ext m token) ∧
  assemble Config.hexParseExt ['L', 'D', 'A'] (some ['0', '5']) = 0x0705 ∧
  assemble Config.hexParseExt ['S', 'T', 'O', 'R', 'E'] (some ['1', 'F']) = 0x2F1F ∧
  assemble Config.hexParseExt ['A', 'N', 'D'] (some ['F', 'O', 'O']) = 0x0A00 ∧
  assemble Config.hexParseExt ['L', 'D', 'A'] none = 0x0400 ∧
  assemble Config.hexParseExt ['N', 'O', 'P'] none = 0x0000 ∧
  assemble Config.hexParseExt ['N', 'O', 'P'] (some ['7']) = 0x0307 ∧
  assemble Config.hexParseExt ['H', 'A', 'L', 'T'] none = 0x3C00 ∧
  assemble Config.hexParseExt ['F', 'O', 'O'] none = 0xFC00 ∧
  assemble Config.hexParseExt ['F', 'O', 'O'] (some ['0', '1']) = 0xFF01

/-- R53: mnemonics that differ in the case of ASCII letters assemble alike, nothing but those letters folds, and a
string whose folded form is none of the 16 names is Unknown. -/
def Obligations.MnemonicsAreCaseInsensitive : Prop :=
  (∀ n < 26, foldChar (Char.ofNat (97 + n)) = Char.ofNat (65 + n)) ∧
  (∀ c : Char, c.toNat < 97 ∨ 122 < c.toNat → foldChar c = c) ∧
  (∀ ext m m' token, m.map foldChar = m'.map foldChar → assemble ext m token = assemble ext m' token) ∧
  (∀ ext m token, m.map foldChar ∉ mnemonicNumbers.map Prod.fst →
    ∃ opc o, decode (assemble ext m token) = .unknown32to63 opc o) ∧
  (∀ ext m token, m.map foldChar ∈ mnemonicNumbers.map Prod.fst → (opcodeOfText m).toNat ≤ 15 ∧
    (m.map foldChar, opcodeOfText m) ∈ mnemonicNumbers ∧ HasOpcode (assemble ext m token) (opcodeOfText m).toNat)

/-- R54: one or two hexadecimal digits, either case, give their value in base 16; any other spelling is malformed
unless it is in the parameter's set, and then has the value the parameter gives. Two clauses are not the source's:
`a` to `f` are digits by the spec's own addition (93 G2, log entry 12, PRESUMED), and what becomes of the empty
string, of which R54 does not speak, is the model's choice (log entry 2). -/
def Obligations.HexadecimalOperands : Prop :=
  (∀ ext a, ∀ x < 16, hexDigit a = some x →
    ∃ b, parseHexByte ext [a] = some b ∧ b.toNat = x) ∧
  (∀ ext a c, ∀ x < 16, ∀ y < 16, hexDigit a = some x → hexDigit c = some y →
    ∃ b, parseHexByte ext [a, c] = some b ∧ b.toNat = 16 * x + y) ∧
  (∀ n < 10, hexDigit (Char.ofNat (48 + n)) = some n) ∧
  (∀ n < 6, hexDigit (Char.ofNat (65 + n)) = some (10 + n) ∧ hexDigit (Char.ofNat (97 + n)) = some (10 + n)) ∧
  (∀ c : Char, (∀ n < 10, c ≠ Char.ofNat (48 + n)) → (∀ n < 6, c ≠ Char.ofNat (65 + n) ∧ c ≠ Char.ofNat (97 + n)) →
    hexDigit c = none) ∧
  (∀ ext s, s.length = 0 ∨ 2 < s.length ∨ (∃ c ∈ s, hexDigit c = none) → parseHexByte ext s = ext s)
end

