-- ==== Sys2Proof/Laws/Decode.lean ====
section
/-! SUPPORT. Laws/Decode.lean: reading a field of a packed word gives the packed field (30_encoding.md R58); the
fields of a word in arithmetic; what an opcode number selects (R59, R61). -/

namespace Sys2Proof

/-- Concatenation, in arithmetic. -/
theorem toNat_append_add {m n : Nat} (x : BitVec m) (y : BitVec n) : (x ++ y).toNat = x.toNat * 2 ^ n + y.toNat := by
  rw [BitVec.toNat_append, ← Nat.shiftLeft_add_eq_or_of_lt y.isLt, Nat.shiftLeft_eq]

/-- The word of R58: `opc * 1024 + P * 512 + V * 256 + opd`. -/
theorem toNat_packWord (opc : OpcodeNum) (p v : Bool) (opd : Byte) :
    (packWord opc p v opd).toNat = opc.toNat * 1024 + p.toNat * 512 + v.toNat * 256 + opd.toNat := by
  unfold packWord
  simp only [toNat_append_add, BitVec.toNat_ofBool]
  omega

@[simp] theorem opcField_packWord (opc : OpcodeNum) (p v : Bool) (opd : Byte) :
    opcField (packWord opc p v opd) = opc := by
  apply BitVec.eq_of_toNat_eq
  have h1 := opd.isLt
  have h2 := opc.isLt
  simp only [opcField, BitVec.extractLsb'_toNat, toNat_packWord, Nat.shiftRight_eq_div_pow]
  cases p <;> cases v <;> simp <;> omega

@[simp] theorem opdField_packWord (opc : OpcodeNum) (p v : Bool) (opd : Byte) :
    opdField (packWord opc p v opd) = opd := by
  apply BitVec.eq_of_toNat_eq
  have h1 := opd.isLt
  simp only [opdField, BitVec.extractLsb'_toNat, toNat_packWord, Nat.shiftRight_eq_div_pow]
  cases p <;> cases v <;> simp <;> omega

@[simp] theorem pField_packWord (opc : OpcodeNum) (p v : Bool) (opd : Byte) :
    pField (packWord opc p v opd) = p := by
  have h1 := opd.isLt
  simp only [pField, BitVec.getLsbD, Nat.testBit_eq_decide_div_mod_eq, toNat_packWord]
  cases p <;> cases v <;> simp <;> omega

@[simp] theorem vField_packWord (opc : OpcodeNum) (p v : Bool) (opd : Byte) :
    vField (packWord opc p v opd) = v := by
  have h1 := opd.isLt
  simp only [vField, BitVec.getLsbD, Nat.testBit_eq_decide_div_mod_eq, toNat_packWord]
  cases p <;> cases v <;> simp <;> omega

/-- The operand status that a status is encoded as is read back. -/
@[simp] theorem operandStatus_bits (s : OperandStatus) : operandStatus s.pBit s.vBit = s := by
  cases s <;> rfl

/-- A word's toNat from its fields. -/
theorem toNat_fields (w : InstrWord) :
    w.toNat = (opcField w).toNat * 1024 + (pField w).toNat * 512 + (vField w).toNat * 256 + (opdField w).toNat := by
  have h := w.isLt
  simp only [opcField, opdField, pField, vField, BitVec.getLsbD, BitVec.extractLsb'_toNat,
    Nat.testBit_eq_decide_div_mod_eq, Nat.shiftRight_eq_div_pow]
  rcases Nat.mod_two_eq_zero_or_one (w.toNat / 2 ^ 9) with h9 | h9 <;>
    rcases Nat.mod_two_eq_zero_or_one (w.toNat / 2 ^ 8) with h8 | h8 <;>
    simp only [h9, h8, decide_true, decide_false, Bool.toNat_true, Bool.toNat_false, zero_ne_one] <;> omega

/-- A word is the packing of its fields. -/
theorem packWord_fields (w : InstrWord) : packWord (opcField w) (pField w) (vField w) (opdField w) = w :=
  BitVec.eq_of_toNat_eq (by rw [toNat_packWord, ← toNat_fields])

/-! ### Decoding in arithmetic -/

/-- The opcode field is the word divided by 1024. -/
theorem toNat_opcField (w : InstrWord) : (opcField w).toNat = w.toNat / 1024 := by
  have h := toNat_fields w
  have h1 := (opdField w).isLt
  cases hp : pField w <;> cases hv : vField w <;>
    simp only [hp, hv, Bool.toNat_true, Bool.toNat_false] at h <;> omega

/-- The decoded operand fields are those of R60. -/
theorem hasOperand_decodeOperand (w : InstrWord) : Machine.HasOperand w (decodeOperand w) := by
  have h := toNat_fields w
  have h1 := (opdField w).isLt
  unfold Machine.HasOperand
  simp only [decodeOperand]
  cases hp : pField w <;> cases hv : vField w <;>
    simp only [hp, hv, operandStatus, Bool.toNat_true, Bool.toNat_false, reduceCtorEq, false_iff, true_iff] at h ⊢ <;>
    omega

/-- The instruction keeps the operand fields it is given. -/
theorem operand_instrOf (opc : OpcodeNum) (o : Operand) : (instrOf opc o).operand = o := by
  unfold instrOf
  split <;> try rfl
  split <;> rfl

/-- The instruction an opcode number selects has that number. -/
theorem opcode_instrOf (opc : OpcodeNum) (o : Operand) : (instrOf opc o).opcode = opc := by
  unfold instrOf
  split <;> first
    | (split <;> rfl)
    | exact BitVec.eq_of_toNat_eq (by simp [Instr.opcode, *])

/-- The opcode numbers from 16 up. -/
theorem instrOf_unknown (opc : OpcodeNum) (o : Operand) (h : 16 ≤ opc.toNat) :
    instrOf opc o = if opc.toNat < 32 then .unknown16to31 opc o else .unknown32to63 opc o := by
  unfold instrOf
  split <;> first | omega | rfl

end Sys2Proof
end

