-- ==== Sys2Proof/Laws/State.lean ====
section
/-! SUPPORT. Laws/State.lean: one lemma per field per update of the state, true by definition, so that no later
proof unfolds a record update. -/

namespace Sys2Proof.Machine

/-! ### `CpuState.setCell` -/

@[simp] theorem setCell_acc (c : CpuState) (a : CellAddr) (v : Byte) : (c.setCell a v).acc = c.acc := rfl
@[simp] theorem setCell_pc (c : CpuState) (a : CellAddr) (v : Byte) : (c.setCell a v).pc = c.pc := rfl
@[simp] theorem setCell_cf (c : CpuState) (a : CellAddr) (v : Byte) : (c.setCell a v).cf = c.cf := rfl
@[simp] theorem setCell_zf (c : CpuState) (a : CellAddr) (v : Byte) : (c.setCell a v).zf = c.zf := rfl
@[simp] theorem setCell_mem (c : CpuState) (a : CellAddr) (v : Byte) :
    (c.setCell a v).mem = Memory.write c.mem a.toNat v := rfl

/-! ### `State.applyReset` -/

@[simp] theorem applyReset_cpu (s : State) : s.applyReset.cpu = CpuState.reset := rfl
@[simp] theorem applyReset_outcome (s : State) : s.applyReset.outcome = s.outcome := rfl
@[simp] theorem applyReset_params (s : State) : s.applyReset.params = s.params := rfl
@[simp] theorem applyReset_rst (s : State) : s.applyReset.rst = s.rst := rfl
@[simp] theorem applyReset_seq (s : State) : s.applyReset.seq = s.seq := rfl

/-! ### `State.accepted` -/

@[simp] theorem accepted_cpu (s : State) (i : Instr) : (s.accepted i).cpu = s.cpu := rfl
@[simp] theorem accepted_outcome (s : State) (i : Instr) : (s.accepted i).outcome = s.outcome := rfl
@[simp] theorem accepted_params (s : State) (i : Instr) : (s.accepted i).params = s.params := rfl
@[simp] theorem accepted_rst (s : State) (i : Instr) : (s.accepted i).rst = s.rst := rfl
@[simp] theorem accepted_pending (s : State) (i : Instr) : (s.accepted i).seq.pending = s.seq.pending.tail := rfl
@[simp] theorem accepted_stopped (s : State) (i : Instr) :
    (s.accepted i).seq.stopped = decide (s.outcome = .halt) := rfl
@[simp] theorem accepted_reports (s : State) (i : Instr) :
    (s.accepted i).seq.reports = s.seq.reports ++ [{ instr := i, outcome := s.outcome }] := rfl

/-! ### `State.load` -/

@[simp] theorem load_cpu (s : State) (p : List InstrWord) : (s.load p).cpu = s.cpu := rfl
@[simp] theorem load_outcome (s : State) (p : List InstrWord) : (s.load p).outcome = s.outcome := rfl
@[simp] theorem load_params (s : State) (p : List InstrWord) : (s.load p).params = s.params := rfl
@[simp] theorem load_rst (s : State) (p : List InstrWord) : (s.load p).rst = s.rst := rfl
@[simp] theorem load_pending (s : State) (p : List InstrWord) : (s.load p).seq.pending = p := rfl
@[simp] theorem load_stopped (s : State) (p : List InstrWord) : (s.load p).seq.stopped = false := rfl
@[simp] theorem load_reports (s : State) (p : List InstrWord) : (s.load p).seq.reports = [] := rfl

/-! ### `State.withFetchWord` -/

@[simp] theorem withFetchWord_cpu (s : State) (n w : Nat) : (s.withFetchWord n w).cpu = s.cpu := rfl
@[simp] theorem withFetchWord_outcome (s : State) (n w : Nat) : (s.withFetchWord n w).outcome = s.outcome := rfl
@[simp] theorem withFetchWord_params (s : State) (n w : Nat) : (s.withFetchWord n w).params = s.params := rfl
@[simp] theorem withFetchWord_rst (s : State) (n w : Nat) : (s.withFetchWord n w).rst = false := rfl
@[simp] theorem withFetchWord_reports (s : State) (n w : Nat) :
    (s.withFetchWord n w).seq.reports = s.seq.reports := rfl

/-- The word placed by `withFetchWord` is the one presented next. -/
theorem withFetchWord_presented (s : State) (n w : Nat) :
    (s.withFetchWord n w).presented = some (wordOfBits n w) := rfl

/-! ### `CpuState.reset` -/

@[simp] theorem reset_acc : CpuState.reset.acc = 0x00 := rfl
@[simp] theorem reset_pc : CpuState.reset.pc = 0x00 := rfl
@[simp] theorem reset_cf : CpuState.reset.cf = false := rfl
@[simp] theorem reset_zf : CpuState.reset.zf = false := rfl
@[simp] theorem reset_mem : CpuState.reset.mem = [] := rfl

end Sys2Proof.Machine
end

