-- ==== Sys2Proof/Laws/Memory.lean ====
section
/-! SUPPORT. Laws/Memory.lean: what reading and writing a byte do (20_memory.md R36, R37), on every memory, and
that writing keeps the canonical form. -/

namespace Sys2Proof.Machine

@[simp] theorem read_nil (a : Nat) : Memory.read [] a = Memory.unlisted := rfl

theorem read_cons (c : Host.Cell) (m : Memory) (a : Nat) :
    Memory.read (c :: m) a = if c.1 = a then c.2 else Memory.read m a := rfl

/-- An address that no entry has reads as the unlisted byte. -/
theorem read_of_not_listed {m : Memory} {a : Nat} (h : ∀ c ∈ m, c.1 ≠ a) : Memory.read m a = Memory.unlisted := by
  induction m with
  | nil => rfl
  | cons c m ih =>
    rw [read_cons, if_neg (h c (by simp))]
    exact ih fun d hd => h d (by simp [hd])

theorem read_erase_same (m : Memory) (a : Nat) : Memory.read (Memory.erase m a) a = Memory.unlisted :=
  read_of_not_listed fun c hc => by simpa [Memory.erase] using (List.mem_filter.mp hc).2

theorem read_erase_other (m : Memory) {a b : Nat} (h : b ≠ a) :
    Memory.read (Memory.erase m a) b = Memory.read m b := by
  induction m with
  | nil => rfl
  | cons c m ih =>
    by_cases hc : c.1 = a
    · have : Memory.erase (c :: m) a = Memory.erase m a := by simp [Memory.erase, hc]
      rw [this, ih, read_cons, if_neg (by omega)]
    · have : Memory.erase (c :: m) a = c :: Memory.erase m a := by simp [Memory.erase, hc]
      rw [this, read_cons, read_cons, ih]

theorem read_insert_same {m : Memory} {a : Nat} (v : Byte) (h : ∀ c ∈ m, c.1 ≠ a) :
    Memory.read (Memory.insert m a v) a = v := by
  induction m with
  | nil => simp [Memory.insert, read_cons]
  | cons c m ih =>
    simp only [Memory.insert]
    split
    · simp [read_cons]
    · rw [read_cons, if_neg (h c (by simp))]
      exact ih fun d hd => h d (by simp [hd])

theorem read_insert_other (m : Memory) {a b : Nat} (v : Byte) (h : b ≠ a) :
    Memory.read (Memory.insert m a v) b = Memory.read m b := by
  induction m with
  | nil => simp [Memory.insert, read_cons, Ne.symm h]
  | cons c m ih =>
    simp only [Memory.insert]
    split
    · rw [read_cons, if_neg (Ne.symm h)]
    · rw [read_cons, read_cons, ih]

theorem erase_not_listed (m : Memory) (a : Nat) : ∀ c ∈ Memory.erase m a, c.1 ≠ a := fun c hc => by
  simpa [Memory.erase] using (List.mem_filter.mp hc).2

/-- Read after write to the same address. -/
theorem read_write_same (m : Memory) (a : Nat) (v : Byte) : Memory.read (Memory.write m a v) a = v := by
  unfold Memory.write
  split
  · rw [read_erase_same, ‹v = _›]
  · exact read_insert_same v (erase_not_listed m a)

/-- A write leaves every other address alone. -/
theorem read_write_other (m : Memory) {a b : Nat} (v : Byte) (h : b ≠ a) :
    Memory.read (Memory.write m a v) b = Memory.read m b := by
  unfold Memory.write
  split
  · exact read_erase_other m h
  · rw [read_insert_other _ v h, read_erase_other m h]

/-! ### The canonical form -/

theorem wf_cons (c : Host.Cell) (m : Memory) :
    Memory.wf (c :: m) = true ↔
      c.1 < 16 ∧ c.2 ≠ Memory.unlisted ∧ (∀ d ∈ m, c.1 < d.1) ∧ Memory.wf m = true := by
  simp only [Memory.wf, Bool.and_eq_true, decide_eq_true_eq, bne_iff_ne, List.all_eq_true, and_assoc]
  exact Iff.rfl

theorem wf_erase {m : Memory} (a : Nat) (h : Memory.wf m = true) : Memory.wf (Memory.erase m a) = true := by
  induction m with
  | nil => rfl
  | cons c m ih =>
    obtain ⟨h1, h2, h3, h4⟩ := (wf_cons c m).mp h
    by_cases hc : c.1 = a
    · have : Memory.erase (c :: m) a = Memory.erase m a := by simp [Memory.erase, hc]
      rw [this]
      exact ih h4
    · have : Memory.erase (c :: m) a = c :: Memory.erase m a := by simp [Memory.erase, hc]
      rw [this]
      exact (wf_cons _ _).mpr ⟨h1, h2, fun d hd => h3 d (List.mem_filter.mp hd).1, ih h4⟩

theorem mem_insert {m : Memory} {a : Nat} {v : Byte} {d : Host.Cell} (h : d ∈ Memory.insert m a v) :
    d = (a, v) ∨ d ∈ m := by
  induction m with
  | nil => simpa [Memory.insert] using h
  | cons c m ih =>
    simp only [Memory.insert] at h
    split at h
    · simpa using h
    · rcases List.mem_cons.mp h with rfl | h'
      · simp
      · rcases ih h' with h'' | h'' <;> simp [h'']

theorem wf_insert {m : Memory} {a : Nat} {v : Byte} (ha : a < 16) (hv : v ≠ Memory.unlisted)
    (hm : ∀ c ∈ m, c.1 ≠ a) (h : Memory.wf m = true) : Memory.wf (Memory.insert m a v) = true := by
  induction m with
  | nil => exact (wf_cons _ _).mpr ⟨ha, hv, by simp, rfl⟩
  | cons c m ih =>
    obtain ⟨h1, h2, h3, h4⟩ := (wf_cons c m).mp h
    have hne := hm c (by simp)
    simp only [Memory.insert]
    split
    · refine (wf_cons _ _).mpr ⟨ha, hv, fun d hd => ?_, h⟩
      rcases List.mem_cons.mp hd with rfl | hd
      · assumption
      · exact Nat.lt_trans ‹_› (h3 d hd)
    · refine (wf_cons _ _).mpr ⟨h1, h2, fun d hd => ?_, ih (fun d hd => hm d (by simp [hd])) h4⟩
      rcases mem_insert hd with rfl | hd
      · show c.1 < a
        omega
      · exact h3 d hd

/-- Writing inside the 16 cells keeps the canonical form. -/
theorem wf_write {m : Memory} {a : Nat} (v : Byte) (ha : a < 16) (h : Memory.wf m = true) :
    Memory.wf (Memory.write m a v) = true := by
  unfold Memory.write
  split
  · exact wf_erase a h
  · exact wf_insert ha ‹_› (erase_not_listed m a) (wf_erase a h)

/-- `MemWrite` keeps the canonical form. -/
theorem wf_setCell {c : CpuState} (a : CellAddr) (v : Byte) (h : Memory.wf c.mem = true) :
    Memory.wf (c.setCell a v).mem = true :=
  wf_write v a.isLt h

/-- The memory after reset is in the canonical form. -/
theorem wf_reset : Memory.wf CpuState.reset.mem = true := rfl

/-- `MemRead` after `MemWrite` to the same cell. -/
theorem cell_setCell_same (c : CpuState) (a : CellAddr) (v : Byte) : (c.setCell a v).cell a = v :=
  read_write_same _ _ _

/-- `MemRead` after `MemWrite` to another cell. -/
theorem cell_setCell_other (c : CpuState) {a b : CellAddr} (v : Byte) (h : b ≠ a) :
    (c.setCell a v).cell b = c.cell b :=
  read_write_other _ _ fun e => h (BitVec.eq_of_toNat_eq e)

/-- Reading depends on the memory alone. -/
theorem cell_congr {c d : CpuState} (h : c.mem = d.mem) (a : CellAddr) : c.cell a = d.cell a := by
  unfold CpuState.cell
  rw [h]

end Sys2Proof.Machine
end

