-- ==== Sys2Proof/Laws/Operands.lean ====
section
/-! SUPPORT. Laws/Operands.lean: everything the operand checks and the shared ways to end a step can answer. -/

namespace Sys2Proof.Machine

theorem requiredOperand_ok_iff (o : Operand) (b : Byte) :
    requiredOperand o = .ok b ↔ o.status = .valid ∧ o.value = b := by
  unfold requiredOperand
  cases h : o.status <;> simp

theorem requiredOperand_error_iff (o : Operand) (k : FaultKind) :
    requiredOperand o = .error k ↔ missingOperandFault o = some k := by
  unfold requiredOperand missingOperandFault
  cases h : o.status <;> simp

theorem toNat_lowNibble {b : Byte} (h : b.toNat < 16) : (b.extractLsb' 0 4).toNat = b.toNat := by
  simp [BitVec.extractLsb'_toNat, Nat.mod_eq_of_lt h]

/-- The address is answered exactly for a valid operand in 0x00 to 0x0F, and it is that operand. -/
theorem memoryAddress_ok_iff (o : Operand) (ea : CellAddr) :
    memoryAddress o = .ok ea ↔ o.status = .valid ∧ o.value.toNat = ea.toNat := by
  unfold memoryAddress requiredOperand
  have hea := ea.isLt
  cases h : o.status <;> simp only [reduceCtorEq, false_and, true_and]
  by_cases hb : o.value.toNat < Config.sizes.ncells
  · rw [if_pos hb]
    have := toNat_lowNibble hb
    constructor
    · intro e
      cases e
      exact this.symm
    · intro e
      rw [BitVec.eq_of_toNat_eq (this.trans e)]
  · rw [if_neg hb]
    simp only [reduceCtorEq, false_iff]
    simp only [Config.sizes] at hb
    omega

theorem memoryAddress_error_iff (o : Operand) (k : FaultKind) :
    memoryAddress o = .error k ↔ addressFault o = some k := by
  unfold memoryAddress requiredOperand addressFault
  cases h : o.status <;> simp only [reduceCtorEq, if_false, if_true, Option.some.injEq, Except.error.injEq]
  by_cases hb : o.value.toNat < Config.sizes.ncells
  · rw [if_pos hb, if_neg (by simp only [Config.sizes] at hb; omega)]
    simp
  · rw [if_neg hb, if_pos (by simp only [Config.sizes] at hb; omega)]
    simp

theorem withAddress_of_ok {o : Operand} {ea : CellAddr} (h : memoryAddress o = .ok ea) (s : State)
    (f : CellAddr → CpuState) : withAddress o s f = .next { s with cpu := f ea, outcome := .ok } := by
  simp [withAddress, h, complete]

theorem withAddress_of_error {o : Operand} {k : FaultKind} (h : memoryAddress o = .error k) (s : State)
    (f : CellAddr → CpuState) : withAddress o s f = .next { s with outcome := .fault k } := by
  simp [withAddress, h, raise]

theorem withTarget_of_ok {o : Operand} {b : Byte} (h : requiredOperand o = .ok b) (s : State)
    (f : Byte → CpuState) : withTarget o s f = .next { s with cpu := f b, outcome := .ok } := by
  simp [withTarget, h, complete]

theorem withTarget_of_error {o : Operand} {k : FaultKind} (h : requiredOperand o = .error k) (s : State)
    (f : Byte → CpuState) : withTarget o s f = .next { s with outcome := .fault k } := by
  simp [withTarget, h, raise]

/-- Everything a memory-addressed step can do. -/
theorem withAddress_cases (o : Operand) (s : State) (f : CellAddr → CpuState) :
    (∃ ea, memoryAddress o = .ok ea ∧ withAddress o s f = .next { s with cpu := f ea, outcome := .ok }) ∨
    (∃ k, memoryAddress o = .error k ∧ withAddress o s f = .next { s with outcome := .fault k }) := by
  cases h : memoryAddress o with
  | ok ea => exact .inl ⟨ea, rfl, withAddress_of_ok h s f⟩
  | error k => exact .inr ⟨k, rfl, withAddress_of_error h s f⟩

/-- Everything a jump's step can do. -/
theorem withTarget_cases (o : Operand) (s : State) (f : Byte → CpuState) :
    (∃ b, requiredOperand o = .ok b ∧ withTarget o s f = .next { s with cpu := f b, outcome := .ok }) ∨
    (∃ k, requiredOperand o = .error k ∧ withTarget o s f = .next { s with outcome := .fault k }) := by
  cases h : requiredOperand o with
  | ok b => exact .inl ⟨b, rfl, withTarget_of_ok h s f⟩
  | error k => exact .inr ⟨k, rfl, withTarget_of_error h s f⟩

end Sys2Proof.Machine
end

