-- ==== Sys2Proof/Laws/Exec.lean ====
section
/-! SUPPORT. Laws/Exec.lean: the form of every answer of `exec`, and what a step of the machine can do. -/

namespace Sys2Proof.Machine

theorem complete_form (s : State) (c : CpuState) :
    ∃ c' r, complete s c = .next { s with cpu := c', outcome := r } := ⟨c, .ok, rfl⟩

theorem withAddress_form (o : Operand) (s : State) (f : CellAddr → CpuState) :
    ∃ c r, withAddress o s f = .next { s with cpu := c, outcome := r } := by
  obtain ⟨ea, -, h⟩ | ⟨k, -, h⟩ := withAddress_cases o s f
  · exact ⟨_, _, h⟩
  · exact ⟨s.cpu, .fault k, h⟩

theorem withTarget_form (o : Operand) (s : State) (f : Byte → CpuState) :
    ∃ c r, withTarget o s f = .next { s with cpu := c, outcome := r } := by
  obtain ⟨b, -, h⟩ | ⟨k, -, h⟩ := withTarget_cases o s f
  · exact ⟨_, _, h⟩
  · exact ⟨s.cpu, .fault k, h⟩

/-- Every instruction, in every state, answers a next state that differs in the datapath and the outcome only. -/
theorem exec_form (i : Instr) (s : State) : ∃ c r, exec i s = .next { s with cpu := c, outcome := r } := by
  cases i with
  | nop o => exact complete_form s _
  | lda o => exact withAddress_form o s _
  | and o => exact withAddress_form o s _
  | ora o => exact withAddress_form o s _
  | xor o => exact withAddress_form o s _
  | invert o => exact complete_form s _
  | jmp o => exact withTarget_form o s _
  | jz o => exact withTarget_form o s _
  | jc o => exact withTarget_form o s _
  | rlc o => exact complete_form s _
  | rrc o => exact complete_form s _
  | store o => exact withAddress_form o s _
  | move o => exact withAddress_form o s _
  | dec o => exact complete_form s _
  | inc o => exact complete_form s _
  | halt o => exact ⟨s.cpu, .halt, rfl⟩
  | unknown16to31 opc o => exact ⟨s.cpu, .fault .unknownInstruction, rfl⟩
  | unknown32to63 opc o => exact ⟨s.cpu, .fault .unknownInstruction, rfl⟩

/-- An executed word: its instruction's answer, handed to the sequencer. -/
theorem issue_of_next {w : InstrWord} {s t : State} (h : exec (decode w) s = .next t) :
    issue w s = .next (t.accepted (decode w)) := by
  simp [issue, h]

/-- Everything a step can do: reset, stay, or execute the presented word. -/
theorem step_cases (s : State) :
    (s.rst = true ∧ step s = .next s.applyReset) ∨
    (s.rst = false ∧ s.presented = none ∧ step s = .next s) ∨
    (∃ w t, s.rst = false ∧ s.presented = some w ∧ exec (decode w) s = .next t ∧
      step s = .next (t.accepted (decode w))) := by
  cases hr : s.rst with
  | true => exact .inl ⟨rfl, by simp [step, hr]⟩
  | false =>
    cases hp : s.presented with
    | none => exact .inr (.inl ⟨rfl, rfl, by simp [step, hr, hp]⟩)
    | some w =>
      obtain ⟨c, r, h⟩ := exec_form (decode w) s
      exact .inr (.inr ⟨w, _, rfl, rfl, h, by simp only [step, hr, hp, issue_of_next h]; rfl⟩)

/-- A presented word is the head of the pending list of a sequencer that has not stopped. -/
theorem presented_some_iff (s : State) (w : InstrWord) :
    s.presented = some w ↔ s.seq.stopped = false ∧ ∃ rest, s.seq.pending = w :: rest := by
  unfold State.presented
  cases s.seq.stopped <;> cases s.seq.pending <;> simp

/-- An invariant that reset, every instruction and the sequencer keep holds after every step. -/
theorem step_keeps (Inv : State → Prop) (hreset : ∀ s, Inv s → Inv s.applyReset)
    (hexec : ∀ s t w, s.presented = some w → Inv s → exec (decode w) s = .next t → Inv (t.accepted (decode w)))
    {s t : State} (h : step s = .next t) (hs : Inv s) : Inv t := by
  obtain ⟨-, e⟩ | ⟨-, -, e⟩ | ⟨w, u, -, hp, he, e⟩ := step_cases s <;> rw [e] at h <;> cases h
  · exact hreset s hs
  · exact hs
  · exact hexec s u w hp hs he

/-- Running one step more, from a state whose step is known. -/
theorem run_succ_of_next {s t : State} (h : step s = .next t) (n : Nat) :
    Host.Core.run Sys2Proof.core (n + 1) s = Host.Core.run Sys2Proof.core n t := by
  have h' : Sys2Proof.core.step s = .next t := h
  simp only [Host.Core.run, h']

end Sys2Proof.Machine
end

