-- ==== Sys2Proof/Laws/PerInstr.lean ====
section
/-! SUPPORT. Laws/PerInstr.lean: facts said once per constructor of Instr. Family EncodedRow: the word of a
well-formed instruction is one that the instruction's row of the opcode table selects (30_encoding.md R60). -/

namespace Sys2Proof.Laws.EncodedRow

/-- The row of the opcode table selects the instruction's word. -/
def Statement (i : Instr) : Prop := i.wf = true → i.row.selects (encode i) = true

/-- The mask of an instruction row keeps the opcode number and drops the operand fields. -/
theorem opcodeMask (n : OpcodeNum) (p v : Bool) (opd : Byte) :
    packWord n p v opd &&& 0xFC00 = packWord n false false 0 := by
  apply BitVec.eq_of_getLsbD_eq
  intro k hk
  simp only [packWord, BitVec.getLsbD_and, BitVec.getLsbD_append, BitVec.getLsbD_ofBool]
  interval_cases k <;> simp

/-- The mask of an unknown row keeps high bits of the opcode number only. -/
theorem unknownMask (m : OpcodeNum) (n : OpcodeNum) (p v : Bool) (opd : Byte) :
    packWord n p v opd &&& packWord m false false 0 = packWord (n &&& m) false false 0 := by
  apply BitVec.eq_of_getLsbD_eq
  intro k hk
  simp only [packWord, BitVec.getLsbD_and, BitVec.getLsbD_append, BitVec.getLsbD_ofBool]
  interval_cases k <;> simp

/-- A row that fixes all six opcode bits. -/
theorem selects_opcode {n : OpcodeNum} {pat : InstrWord} (h : packWord n false false 0 = pat) (p v : Bool) (opd : Byte) :
    OpcodeRow.selects { mask := 0xFC00, pattern := pat } (packWord n p v opd) = true := by
  simp only [OpcodeRow.selects, opcodeMask, h, beq_self_eq_true]

theorem nop (o : Operand) : Statement (.nop o) := fun _ =>
  selects_opcode (n := 0) (pat := 0x0000) (by decide) _ _ _

theorem lda (o : Operand) : Statement (.lda o) := fun _ =>
  selects_opcode (n := 1) (pat := 0x0400) (by decide) _ _ _

theorem and (o : Operand) : Statement (.and o) := fun _ =>
  selects_opcode (n := 2) (pat := 0x0800) (by decide) _ _ _

theorem ora (o : Operand) : Statement (.ora o) := fun _ =>
  selects_opcode (n := 3) (pat := 0x0C00) (by decide) _ _ _

theorem xor (o : Operand) : Statement (.xor o) := fun _ =>
  selects_opcode (n := 4) (pat := 0x1000) (by decide) _ _ _

theorem invert (o : Operand) : Statement (.invert o) := fun _ =>
  selects_opcode (n := 5) (pat := 0x1400) (by decide) _ _ _

theorem jmp (o : Operand) : Statement (.jmp o) := fun _ =>
  selects_opcode (n := 6) (pat := 0x1800) (by decide) _ _ _

theorem jz (o : Operand) : Statement (.jz o) := fun _ =>
  selects_opcode (n := 7) (pat := 0x1C00) (by decide) _ _ _

theorem jc (o : Operand) : Statement (.jc o) := fun _ =>
  selects_opcode (n := 8) (pat := 0x2000) (by decide) _ _ _

theorem rlc (o : Operand) : Statement (.rlc o) := fun _ =>
  selects_opcode (n := 9) (pat := 0x2400) (by decide) _ _ _

theorem rrc (o : Operand) : Statement (.rrc o) := fun _ =>
  selects_opcode (n := 10) (pat := 0x2800) (by decide) _ _ _

theorem store (o : Operand) : Statement (.store o) := fun _ =>
  selects_opcode (n := 11) (pat := 0x2C00) (by decide) _ _ _

theorem move (o : Operand) : Statement (.move o) := fun _ =>
  selects_opcode (n := 12) (pat := 0x3000) (by decide) _ _ _

theorem dec (o : Operand) : Statement (.dec o) := fun _ =>
  selects_opcode (n := 13) (pat := 0x3400) (by decide) _ _ _

theorem inc (o : Operand) : Statement (.inc o) := fun _ =>
  selects_opcode (n := 14) (pat := 0x3800) (by decide) _ _ _

theorem halt (o : Operand) : Statement (.halt o) := fun _ =>
  selects_opcode (n := 15) (pat := 0x3C00) (by decide) _ _ _

theorem unknown16to31 (opc : OpcodeNum) (o : Operand) : Statement (.unknown16to31 opc o) := fun h => by
  have key : ∀ n : OpcodeNum, wfUnknown16to31 n = true → packWord (n &&& 0x30) false false 0 = 0x4000 := by decide
  show (packWord opc _ _ _ &&& packWord 0x30 false false 0 == 0x4000) = true
  rw [unknownMask, key opc h, beq_self_eq_true]

theorem unknown32to63 (opc : OpcodeNum) (o : Operand) : Statement (.unknown32to63 opc o) := fun h => by
  have key : ∀ n : OpcodeNum, wfUnknown32to63 n = true → packWord (n &&& 0x20) false false 0 = 0x8000 := by decide
  show (packWord opc _ _ _ &&& packWord 0x20 false false 0 == 0x8000) = true
  rw [unknownMask, key opc h, beq_self_eq_true]

end Sys2Proof.Laws.EncodedRow
end

