-- ==== Sys2Proof/Tests/Slice0.lean ====
section
/-! SUPPORT. Tests/Slice0.lean: the model's own tests. Words, states and results come from spec/95_test_vectors.md
(V<n>, S<n>, P<n>) and from the encodings of spec/30_encoding.md; none is the model's own answer. -/

namespace Sys2Proof.Tests

open Sys2Proof.Machine

/-! ### Helpers -/

/-- A machine with the given datapath and nothing presented, at the recommended parameter. -/
def mk (a p : Byte) (c z : Bool) (m : Memory) : State :=
  { State.reset with cpu := { acc := a, pc := p, cf := c, zf := z, mem := m } }

/-- The datapath and the outcome after one step that executes the word. -/
def stepWord (s : State) (w : Nat) : Option (CpuState × StepOutcome) :=
  match step (s.withFetchWord 16 w) with
  | .next t => some (t.cpu, t.outcome)
  | _ => none

/-- The state after one step, if there is one. -/
def nextOf (r : Host.Outcome State Fault Refusal) : Option State :=
  match r with
  | .next t => some t
  | _ => none

/-- A datapath written out. -/
def cpu (a p : Byte) (c z : Bool) (m : Memory) : CpuState := { acc := a, pc := p, cf := c, zf := z, mem := m }

/-! ### Sizes (R5, 93 U14) -/

theorem test_sizes_agree_with_types :
    (0 : Byte).toNat < 2 ^ Config.sizes.xlen ∧ (0xFF : Byte).toNat + 1 = 2 ^ Config.sizes.pcw ∧
    (0xF : CellAddr).toNat + 1 = Config.sizes.ncells ∧ (0xF : CellAddr).toNat + 1 = 2 ^ Config.sizes.addrw ∧
    (0xFF : Byte).toNat + 1 = 2 ^ Config.sizes.cellw ∧ (0xFF : Byte).toNat + 1 = 2 ^ Config.sizes.opdw ∧
    mnemonicNumbers.length = Config.sizes.mnemonics := by decide

/-! ### WellFormed: an ill-formed term for each check, refused -/

theorem test_wf_refuses_16to31_below : (Instr.unknown16to31 15 ⟨.absent, 0⟩).wf = false := by decide
theorem test_wf_refuses_16to31_above : (Instr.unknown16to31 32 ⟨.absent, 0⟩).wf = false := by decide
theorem test_wf_refuses_32to63 : (Instr.unknown32to63 31 ⟨.valid, 5⟩).wf = false := by decide

/-! ### Decoding: for every constructor a word written out bit by bit from R58 and R59 -/

theorem test_decode_nop : decode 0b0000001100000111 = .nop ⟨.valid, 0x07⟩ := by decide
theorem test_decode_lda : decode 0b0000011100000101 = .lda ⟨.valid, 0x05⟩ := by decide
theorem test_decode_and : decode 0b0000101000000000 = .and ⟨.malformed, 0x00⟩ := by decide
theorem test_decode_ora : decode 0b0000110000000000 = .ora ⟨.absent, 0x00⟩ := by decide
theorem test_decode_xor : decode 0b0001001100000011 = .xor ⟨.valid, 0x03⟩ := by decide
theorem test_decode_invert : decode 0b0001011100011111 = .invert ⟨.valid, 0x1F⟩ := by decide
theorem test_decode_jmp : decode 0b0001101110000000 = .jmp ⟨.valid, 0x80⟩ := by decide
theorem test_decode_jz : decode 0b0001111100001010 = .jz ⟨.valid, 0x0A⟩ := by decide
theorem test_decode_jc : decode 0b0010001000000000 = .jc ⟨.malformed, 0x00⟩ := by decide
theorem test_decode_rlc : decode 0b0010010000000000 = .rlc ⟨.absent, 0x00⟩ := by decide
theorem test_decode_rrc : decode 0b0010100000000000 = .rrc ⟨.absent, 0x00⟩ := by decide
theorem test_decode_store : decode 0b0010111100011111 = .store ⟨.valid, 0x1F⟩ := by decide
theorem test_decode_move : decode 0b0011001100000000 = .move ⟨.valid, 0x00⟩ := by decide
theorem test_decode_dec : decode 0b0011011000000000 = .dec ⟨.malformed, 0x00⟩ := by decide
theorem test_decode_inc : decode 0b0011101100011111 = .inc ⟨.valid, 0x1F⟩ := by decide
theorem test_decode_halt : decode 0b0011111100000101 = .halt ⟨.valid, 0x05⟩ := by decide
theorem test_decode_unknown16to31 : decode 0b0100011100000001 = .unknown16to31 17 ⟨.valid, 0x01⟩ := by decide
theorem test_decode_unknown32to63 : decode 0b1000001100000001 = .unknown32to63 32 ⟨.valid, 0x01⟩ := by decide

/-- V19: `P = 0` means absent whatever `V` says. -/
theorem test_decode_v_ignored_without_p : (decode 0x0500).operand.status = .absent := by decide

/-- R60: no two of the 18 rows overlap: any two differ in a bit that both masks fix. -/
theorem test_rows_do_not_overlap :
    opcodeTable.Pairwise (fun r q => r.pattern &&& (r.mask &&& q.mask) ≠ q.pattern &&& (r.mask &&& q.mask)) := by decide

/-- The host's numbering: bit 0 is the least significant bit; more than 16 bits are no instruction. -/
theorem test_decodeTableWord : decodeTableWord 16 0x2F05 = some (.store ⟨.valid, 0x05⟩) ∧ decodeTableWord 17 0 = none := by
  decide

/-! ### One step each, from 95_test_vectors.md part 2 -/

theorem test_nop_V2 :
    stepWord (mk 0x55 0xFF true false []) 0x0000 =
      some (cpu 0x55 0x00 true false [], .ok) := by decide
theorem test_nop_V6 :
    stepWord (mk 0x00 0x10 false false []) 0x01FF =
      some (cpu 0x00 0x11 false false [], .ok) := by decide
theorem test_lda_V9 :
    stepWord (mk 0x12 0x00 false false [(15, 0x01)]) 0x070F =
      some (cpu 0x01 0x00 false false [(15, 0x01)], .ok) := by decide
theorem test_lda_V10 :
    stepWord (mk 0x12 0x00 false false [(0, 0x77)]) 0x0710 =
      some (cpu 0x12 0x00 false false [(0, 0x77)], .fault .addressOutOfRange) := by decide
theorem test_move_V15 :
    stepWord (mk 0x00 0x00 false false [(0, 0x7E)]) 0x3300 =
      some (cpu 0x7E 0x00 false false [(0, 0x7E)], .ok) := by decide
theorem test_move_V17 :
    stepWord (mk 0x12 0x00 false false [(0, 0x77)]) 0x3000 =
      some (cpu 0x12 0x00 false false [(0, 0x77)], .fault .malformedOperand) := by decide
theorem test_and_V20 :
    stepWord (mk 0xCC 0x00 false false [(3, 0xAA)]) 0x0B03 =
      some (cpu 0x88 0x00 false false [(3, 0xAA)], .ok) := by decide
theorem test_and_V29 :
    stepWord (mk 0xCC 0x00 false false [(3, 0xAA)]) 0x0B13 =
      some (cpu 0xCC 0x00 false false [(3, 0xAA)], .fault .addressOutOfRange) := by decide
theorem test_ora_V21 :
    stepWord (mk 0xCC 0x00 false false [(3, 0xAA)]) 0x0F03 =
      some (cpu 0xEE 0x00 false false [(3, 0xAA)], .ok) := by decide
theorem test_ora_V30 :
    stepWord (mk 0xCC 0x00 false false [(3, 0xAA)]) 0x0C00 =
      some (cpu 0xCC 0x00 false false [(3, 0xAA)], .fault .malformedOperand) := by decide
theorem test_xor_V22 :
    stepWord (mk 0xCC 0x00 false false [(3, 0xAA)]) 0x1303 =
      some (cpu 0x66 0x00 false false [(3, 0xAA)], .ok) := by decide
theorem test_xor_V27 :
    stepWord (mk 0x5A 0x00 false false [(1, 0x5A)]) 0x1301 =
      some (cpu 0x00 0x00 false false [(1, 0x5A)], .ok) := by decide
theorem test_invert_V33 :
    stepWord (mk 0x00 0x00 true false []) 0x1400 =
      some (cpu 0xFF 0x00 true false [], .ok) := by decide
theorem test_invert_V35 :
    stepWord (mk 0x01 0x00 false false []) 0x171F =
      some (cpu 0xFE 0x00 false false [], .ok) := by decide
theorem test_store_V42 :
    stepWord (mk 0x00 0x00 false false [(2, 0x99)]) 0x2F02 =
      some (cpu 0x00 0x00 false false [], .ok) := by decide
theorem test_store_V39 :
    stepWord (mk 0x5A 0x00 false false [(15, 0x22)]) 0x2F1F =
      some (cpu 0x5A 0x00 false false [(15, 0x22)], .fault .addressOutOfRange) := by decide
theorem test_jmp_V44 :
    stepWord (mk 0x00 0x03 false false []) 0x1B80 =
      some (cpu 0x00 0x80 false false [], .ok) := by decide
theorem test_jmp_V47 :
    stepWord (mk 0x00 0x03 false false []) 0x1800 =
      some (cpu 0x00 0x03 false false [], .fault .malformedOperand) := by decide
theorem test_jz_V50 :
    stepWord (mk 0x00 0x03 false true []) 0x1F0A =
      some (cpu 0x00 0x0A false true [], .ok) := by decide
theorem test_jz_V51 :
    stepWord (mk 0x00 0xFF false false []) 0x1F0A =
      some (cpu 0x00 0x00 false false [], .ok) := by decide
theorem test_jc_V57 :
    stepWord (mk 0x00 0x03 true false []) 0x230A =
      some (cpu 0x00 0x0A true false [], .ok) := by decide
theorem test_jc_V59 :
    stepWord (mk 0x00 0x03 true true []) 0x2200 =
      some (cpu 0x00 0x03 true true [], .fault .malformedOperand) := by decide
theorem test_rlc_V66 :
    stepWord (mk 0x7F 0x00 true false []) 0x2400 =
      some (cpu 0xFE 0x00 false false [], .ok) := by decide
theorem test_rlc_V64 :
    stepWord (mk 0x80 0x00 false false []) 0x2400 =
      some (cpu 0x01 0x00 true false [], .ok) := by decide
theorem test_rrc_V72 :
    stepWord (mk 0xFE 0x00 true false []) 0x2800 =
      some (cpu 0x7F 0x00 false false [], .ok) := by decide
theorem test_rrc_V70 :
    stepWord (mk 0x01 0x00 false false []) 0x2800 =
      some (cpu 0x80 0x00 true false [], .ok) := by decide
theorem test_inc_V75 :
    stepWord (mk 0xFF 0x00 true true []) 0x3800 =
      some (cpu 0x00 0x00 true true [], .ok) := by decide
theorem test_inc_V83 :
    stepWord (mk 0x09 0x00 false false []) 0x3B1F =
      some (cpu 0x0A 0x00 false false [], .ok) := by decide
theorem test_dec_V79 :
    stepWord (mk 0x00 0x00 true false []) 0x3400 =
      some (cpu 0xFF 0x00 true false [], .ok) := by decide
theorem test_dec_V82 :
    stepWord (mk 0x42 0x00 false true []) 0x3400 =
      some (cpu 0x41 0x00 false true [], .ok) := by decide
theorem test_halt_V85 :
    stepWord (mk 0x12 0x34 true false [(1, 0x56)]) 0x3C00 =
      some (cpu 0x12 0x34 true false [(1, 0x56)], .halt) := by decide
theorem test_halt_V87 :
    stepWord (mk 0x12 0x34 true false [(1, 0x56)]) 0x3E00 =
      some (cpu 0x12 0x34 true false [(1, 0x56)], .halt) := by decide
theorem test_unknown_V94 :
    stepWord (mk 0x12 0x34 true false [(1, 0x56)]) 0x4701 =
      some (cpu 0x12 0x34 true false [(1, 0x56)], .fault .unknownInstruction) := by decide
theorem test_unknown_V93 :
    stepWord (mk 0x12 0x34 true false [(1, 0x56)]) 0x8301 =
      some (cpu 0x12 0x34 true false [(1, 0x56)], .fault .unknownInstruction) := by decide

/-- 95, conventions: at `PC_ADVANCE_ALL = 1` a data instruction that completes adds 1 to `PC`, modulo 256. -/
theorem test_inc_at_pc_advance_all :
    stepWord { mk 0x09 0xFF false false [] with params := { pcAdvanceAll := true } } 0x3800 =
      some (cpu 0x0A 0x00 false false [], .ok) := by decide

/-- The same, faulting: `PC` is not advanced (R81). -/
theorem test_fault_at_pc_advance_all :
    stepWord { mk 0x09 0x03 false false [] with params := { pcAdvanceAll := true } } 0x0710 =
      some (cpu 0x09 0x03 false false [], .fault .addressOutOfRange) := by decide

/-! ### The sequencer and reset, one step each -/

/-- P5 line 1 (R123): a fault is reported and the next instruction stays to be presented. -/
theorem test_fault_goes_on :
    (nextOf (step (State.reset.load [0x0A00, 0x3C00]))).map (fun t => (t.seq.pending, t.seq.stopped)) =
      some ([0x3C00], false) := by decide

/-- P3 line 10 (R123): after a HALT the rest is never presented. -/
theorem test_halt_stops :
    (nextOf (step (State.reset.load [0x3C00, 0x3800]))).map (fun t => (t.presented, t.seq.stopped)) =
      some (none, true) := by decide

/-- P2 line 6 (R103): a taken jump does not change which instruction is presented next. -/
theorem test_jump_does_not_steer :
    (nextOf (step ((mk 0xFD 0x01 true false []).load [0x230A, 0x1F0C]))).map (fun t => (t.cpu.pc, t.presented)) =
      some (0x0A, some 0x1F0C) := by decide

/-- R21, R150: reset. -/
theorem test_reset_input :
    (nextOf (step { mk 0x12 0x34 true true [(1, 0x56)] with rst := true })).map State.cpu =
      some (cpu 0x00 0x00 false false []) := by decide

/-- R130, R140: the code on `fault[1:0]` after V12. -/
theorem test_fault_port :
    (nextOf (step (State.reset.withFetchWord 16 0x0400))).map (fun t => (t.faultPort, t.haltPort)) = some (2, false) := by
  decide

/-! ### Memory -/

theorem test_memory_write_sorted : Memory.write [(1, 0x11), (9, 0x22)] 5 0x33 = [(1, 0x11), (5, 0x33), (9, 0x22)] := by
  decide
theorem test_memory_wf_refuses_zero : Memory.wf [(3, 0x00)] = false := by decide
theorem test_memory_wf_refuses_order : Memory.wf [(3, 0x01), (2, 0x01)] = false := by decide
theorem test_memory_wf_refuses_outside : Memory.wf [(16, 0x01)] = false := by decide

/-! ### The assembler -/

/-- P3: the program's text and its words. -/
theorem test_assemble_P3 :
    assembleSource Config.hexParseExt "lda 00;AND FOO;INC;STORE 1F;store 0f;FOO 01;JMP;JMP 80;NOP 7;NOP ZZ;HALT;INC".toList =
      some [0x0700, 0x0A00, 0x3800, 0x2F1F, 0x2F0F, 0xFF01, 0x1800, 0x1B80, 0x0307, 0x0200, 0x3C00, 0x3800] := by decide

/-- A value of the parameter that R6 names, an infinite set: leading zeros beyond two digits. -/
def leadingZeros : HexParseExt := fun s =>
  if 2 < s.length ∧ (s.take (s.length - 2)).all (fun c => c == '0') then hexDigits (s.drop (s.length - 2)) else none

/-- V31 and R54's list: `0x3` and `005` are malformed at the empty parameter; `00003` is `03` where leading zeros
are in the set, `100` is not. -/
theorem test_hex_parse_ext :
    assemble Config.hexParseExt "XOR".toList (some "0x3".toList) = 0x1200 ∧
    assemble Config.hexParseExt "XOR".toList (some "005".toList) = 0x1200 ∧
    assemble leadingZeros "XOR".toList (some "00003".toList) = 0x1303 ∧
    assemble leadingZeros "XOR".toList (some "100".toList) = 0x1200 := by decide

/-- R52: blanks between separators are skipped; 93 U12: a third token and a leading blank are refused. -/
theorem test_source_lines :
    assembleSource Config.hexParseExt "INC;; ;\nHALT\n".toList = some [0x3800, 0x3C00] ∧
    assembleSource Config.hexParseExt "LDA 05 06".toList = none ∧
    assembleSource Config.hexParseExt " INC".toList = none := by decide

/-- R53 and R54 with log entry 11: DEL is a character of its token; a carriage return is refused. -/
theorem test_source_control_characters :
    assembleSource Config.hexParseExt (['L', 'D', 'A', ' ', '5', Char.ofNat 0x7F]) = some [0x0600] ∧
    assembleSource Config.hexParseExt (['I', 'N', 'C', '\r']) = none := by decide

/-! ### Witnesses: for each statement with hypotheses, a concrete state and operands that meet them, at the ends of
the ranges. -/

/-- A state with every component away from its reset value. -/
def s1 : State :=
  { mk 0x96 0xFF true true [(0, 0x7E), (15, 0x22)] with
    params := { pcAdvanceAll := true }, seq := { pending := [0x2F0F, 0x3C00], stopped := false, reports := [] } }

theorem witness_ResetInputZeroesTheDatapath : { s1 with rst := true }.rst = true ∧ s1.cpu.acc.toNat ≠ 0 := by decide

theorem witness_StepExecutesThePresentedWord :
    s1.rst = false ∧ s1.seq.stopped = false ∧ s1.seq.pending = 0x2F0F :: [0x3C00] ∧
    decode 0x2F0F = .store ⟨.valid, 0x0F⟩ ∧ (nextOf (exec (.store ⟨.valid, 0x0F⟩) s1)).isSome = true ∧
    (nextOf (exec (decode 0x3C00) s1)).map State.outcome = some .halt := by decide

theorem witness_StepWithNothingPresentedChangesNothing :
    ((s1.load []).rst = false ∧ (s1.load []).seq.pending = []) ∧
    (s1.rst = false ∧ { s1.seq with stopped := true }.stopped = true) := by decide

theorem witness_DecodeReadsTheFieldsAndTheRowsPartition :
    (0x0000 : InstrWord).toNat / 1024 = 0 ∧ (0x03FF : InstrWord).toNat / 1024 = 0 ∧
    (0x3C00 : InstrWord).toNat / 1024 = 15 ∧ (0x3FFF : InstrWord).toNat / 1024 = 15 ∧
    (0x4000 : InstrWord).toNat / 1024 = 16 ∧ (0x7FFF : InstrWord).toNat / 1024 = 31 ∧
    (0x8000 : InstrWord).toNat / 1024 = 32 ∧ (0xFFFF : InstrWord).toNat / 1024 = 63 ∧
    (decode 0xFFFF).row ∈ opcodeTable := by decide

theorem witness_EncodedWordIsTheSumOfItsFields :
    (Instr.lda ⟨.valid, 0x0F⟩).wf = true ∧ (Instr.unknown16to31 16 ⟨.absent, 0⟩).wf = true ∧
    (Instr.unknown16to31 31 ⟨.absent, 0⟩).wf = true ∧ (Instr.unknown32to63 32 ⟨.malformed, 0⟩).wf = true ∧
    (Instr.unknown32to63 63 ⟨.valid, 0xFF⟩).wf = true := by decide

theorem witness_DecodeOfEncodeIsTheInstruction :
    (Instr.store ⟨.malformed, 0xFF⟩).wf = true ∧ (Instr.unknown16to31 31 ⟨.valid, 1⟩).wf = true ∧
    (Instr.unknown32to63 32 ⟨.absent, 1⟩).wf = true := by decide

theorem witness_EncodeOfDecodeIsTheWord :
    ((0x0700 : InstrWord).toNat / 512 % 2 = 1) ∧ ((0x0400 : InstrWord).toNat / 256 % 2 = 0) ∧
    ((0x0500 : InstrWord).toNat / 512 % 2 = 0 ∧ (0x0500 : InstrWord).toNat / 256 % 2 = 1) := by decide

theorem witness_IgnoredOperandFieldsHaveNoEffect :
    TakesNoOperand .nop ∧ TakesNoOperand .halt ∧ (⟨.absent, 0⟩ : Operand) ≠ ⟨.malformed, 1⟩ :=
  ⟨.inl rfl, .inr (.inr (.inr (.inr (.inr (.inr rfl))))), by decide⟩

theorem witness_OperandByteCountsOnlyWhenValid :
    ((Instr.lda ⟨.absent, 0x05⟩).operand.status ≠ .valid ∧ (⟨.absent, 0x06⟩ : Operand).status = .absent) ∧
    ((Instr.jmp ⟨.malformed, 0x05⟩).operand.status ≠ .valid ∧ (⟨.malformed, 0x06⟩ : Operand).status = .malformed) := by
  decide

theorem witness_NopAdvancesPcOnly :
    (0x0000 : InstrWord).toNat / 1024 = 0 ∧ (0x03FF : InstrWord).toNat / 1024 = 0 := by decide

theorem witness_LdaLoadsTheAddressedCell :
    (0x0400 : InstrWord).toNat / 1024 = 1 ∧ (0x07FF : InstrWord).toNat / 1024 = 1 ∧
    ((⟨.valid, 0x0F⟩ : Operand).status = .valid ∧ (0x0F : Byte).toNat = (0xF : CellAddr).toNat) ∧
    (⟨.absent, 0x0F⟩ : Operand).status ≠ .valid ∧ (⟨.malformed, 0x0F⟩ : Operand).status ≠ .valid ∧
    ((⟨.valid, 0x10⟩ : Operand).status = .valid ∧ 15 < (0x10 : Byte).toNat) := by decide

theorem witness_MoveIsLdaUnderASecondMnemonic :
    (0x3000 : InstrWord).toNat / 1024 = 12 ∧ (0x33FF : InstrWord).toNat / 1024 = 12 ∧
    ((⟨.valid, 0x0F⟩ : Operand).status = .valid ∧ (0x0F : Byte).toNat = (0xF : CellAddr).toNat) ∧
    (⟨.absent, 0x0F⟩ : Operand).status ≠ .valid ∧ (⟨.malformed, 0x0F⟩ : Operand).status ≠ .valid ∧
    ((⟨.valid, 0x10⟩ : Operand).status = .valid ∧ 15 < (0x10 : Byte).toNat) := by decide

theorem witness_AndIsTheBitwiseAndWithTheCell :
    (0x0800 : InstrWord).toNat / 1024 = 2 ∧ (0x0BFF : InstrWord).toNat / 1024 = 2 ∧
    ((⟨.valid, 0x0F⟩ : Operand).status = .valid ∧ (0x0F : Byte).toNat = (0xF : CellAddr).toNat) ∧
    (⟨.absent, 0x0F⟩ : Operand).status ≠ .valid ∧ (⟨.malformed, 0x0F⟩ : Operand).status ≠ .valid ∧
    ((⟨.valid, 0x10⟩ : Operand).status = .valid ∧ 15 < (0x10 : Byte).toNat) := by decide

theorem witness_OraIsTheBitwiseOrWithTheCell :
    (0x0C00 : InstrWord).toNat / 1024 = 3 ∧ (0x0FFF : InstrWord).toNat / 1024 = 3 ∧
    ((⟨.valid, 0x0F⟩ : Operand).status = .valid ∧ (0x0F : Byte).toNat = (0xF : CellAddr).toNat) ∧
    (⟨.absent, 0x0F⟩ : Operand).status ≠ .valid ∧ (⟨.malformed, 0x0F⟩ : Operand).status ≠ .valid ∧
    ((⟨.valid, 0x10⟩ : Operand).status = .valid ∧ 15 < (0x10 : Byte).toNat) := by decide

theorem witness_XorIsTheBitwiseExclusiveOrWithTheCell :
    (0x1000 : InstrWord).toNat / 1024 = 4 ∧ (0x13FF : InstrWord).toNat / 1024 = 4 ∧
    ((⟨.valid, 0x0F⟩ : Operand).status = .valid ∧ (0x0F : Byte).toNat = (0xF : CellAddr).toNat) ∧
    (⟨.absent, 0x0F⟩ : Operand).status ≠ .valid ∧ (⟨.malformed, 0x0F⟩ : Operand).status ≠ .valid ∧
    ((⟨.valid, 0x10⟩ : Operand).status = .valid ∧ 15 < (0x10 : Byte).toNat) := by decide

theorem witness_InvertComplementsTheAccumulator :
    (0x1400 : InstrWord).toNat / 1024 = 5 ∧ (0x17FF : InstrWord).toNat / 1024 = 5 := by decide

theorem witness_StoreWritesTheAddressedCellOnly :
    (0x2C00 : InstrWord).toNat / 1024 = 11 ∧ (0x2FFF : InstrWord).toNat / 1024 = 11 ∧
    ((⟨.valid, 0x0F⟩ : Operand).status = .valid ∧ (0x0F : Byte).toNat = (0xF : CellAddr).toNat) ∧
    (⟨.absent, 0x0F⟩ : Operand).status ≠ .valid ∧ (⟨.malformed, 0x0F⟩ : Operand).status ≠ .valid ∧
    ((⟨.valid, 0x10⟩ : Operand).status = .valid ∧ 15 < (0x10 : Byte).toNat) ∧
    (nextOf (exec (.store ⟨.valid, 0x0F⟩) s1)).map (fun t => t.cpu.cell 0xF) = some 0x96 ∧ (0xE : CellAddr) ≠ 0xF := by decide

theorem witness_JmpWritesTheTargetToPc :
    (0x1800 : InstrWord).toNat / 1024 = 6 ∧ (0x1BFF : InstrWord).toNat / 1024 = 6 ∧
    (⟨.valid, 0xFF⟩ : Operand).status = .valid ∧ (⟨.absent, 0x00⟩ : Operand).status ≠ .valid ∧
    (⟨.malformed, 0x00⟩ : Operand).status ≠ .valid := by decide

theorem witness_JzJumpsOnTheZeroFlag :
    (0x1C00 : InstrWord).toNat / 1024 = 7 ∧ (0x1FFF : InstrWord).toNat / 1024 = 7 ∧
    (⟨.valid, 0xFF⟩ : Operand).status = .valid ∧ (⟨.absent, 0x00⟩ : Operand).status ≠ .valid ∧
    (⟨.malformed, 0x00⟩ : Operand).status ≠ .valid ∧ s1.cpu.zf = true ∧ State.reset.cpu.zf = false := by decide

theorem witness_JcJumpsOnTheCarryFlag :
    (0x2000 : InstrWord).toNat / 1024 = 8 ∧ (0x23FF : InstrWord).toNat / 1024 = 8 ∧
    (⟨.valid, 0xFF⟩ : Operand).status = .valid ∧ (⟨.absent, 0x00⟩ : Operand).status ≠ .valid ∧
    (⟨.malformed, 0x00⟩ : Operand).status ≠ .valid ∧ s1.cpu.cf = true ∧ State.reset.cpu.cf = false := by decide

theorem witness_RlcRotatesLeftIntoTheCarry :
    (0x2400 : InstrWord).toNat / 1024 = 9 ∧ (0x27FF : InstrWord).toNat / 1024 = 9 := by decide

theorem witness_RrcRotatesRightIntoTheCarry :
    (0x2800 : InstrWord).toNat / 1024 = 10 ∧ (0x2BFF : InstrWord).toNat / 1024 = 10 := by decide

theorem witness_IncAddsOneModulo256 :
    (0x3800 : InstrWord).toNat / 1024 = 14 ∧ (0x3BFF : InstrWord).toNat / 1024 = 14 := by decide

theorem witness_DecSubtractsOneModulo256 :
    (0x3400 : InstrWord).toNat / 1024 = 13 ∧ (0x37FF : InstrWord).toNat / 1024 = 13 := by decide

theorem witness_HaltWritesNothingAndSignals :
    (0x3C00 : InstrWord).toNat / 1024 = 15 ∧ (0x3FFF : InstrWord).toNat / 1024 = 15 := by decide

theorem witness_store_address : memoryAddress ⟨.valid, 0x0F⟩ = .ok 0xF := rfl

theorem witness_UnknownOpcodesRaiseUnknownInstruction :
    16 ≤ (0x4000 : InstrWord).toNat / 1024 ∧ 16 ≤ (0xFFFF : InstrWord).toNat / 1024 := by decide

theorem witness_AddressValidation :
    MemoryAddressed .lda ∧ MemoryAddressed .store ∧ ReadsMemory .lda ∧ ReadsMemory .xor ∧
    ((⟨.valid, 0x0F⟩ : Operand).status = .valid ∧ (0x0F : Byte).toNat ≤ 15) ∧
    ((⟨.valid, 0x10⟩ : Operand).status = .valid ∧ 15 < (0x10 : Byte).toNat) ∧
    (s1.setZf false).params = s1.params ∧ (s1.setZf false).cpu.acc = s1.cpu.acc ∧
    (s1.setZf false).cpu.cell ((0x0F : Byte).extractLsb' 0 4) = s1.cpu.cell ((0x0F : Byte).extractLsb' 0 4) :=
  ⟨.inl rfl, .inr (.inr (.inr (.inr (.inr rfl)))), .inl rfl, .inr (.inr (.inr (.inr rfl))), by decide⟩

theorem witness_JumpTargetsAreNotValidated :
    Jump .jmp ∧ Jump .jc ∧ (⟨.valid, 0x80⟩ : Operand).status = .valid ∧ (⟨.valid, 0x80⟩ : Operand).value = 0x80 :=
  ⟨.inl rfl, .inr (.inr rfl), by decide⟩

theorem witness_MalformedOperandExactly :
    MemoryAddressed .and ∧ Jump .jz ∧
    (nextOf (exec (.jz ⟨.malformed, 0x0A⟩) s1)).map State.outcome = some (.fault .malformedOperand) ∧
    (∀ mk, MemoryAddressed mk ∨ Jump mk → ∀ o, Instr.dec ⟨.malformed, 0x00⟩ ≠ mk o) ∧
    ∀ mk, MemoryAddressed mk ∨ Jump mk → ∀ o, Instr.unknown16to31 16 ⟨.absent, 0x00⟩ ≠ mk o := by
  refine ⟨.inr (.inr (.inl rfl)), .inr (.inl rfl), by decide, ?_, ?_⟩ <;>
    (intro mk h o; rcases h with (rfl | rfl | rfl | rfl | rfl | rfl) | (rfl | rfl | rfl) <;> simp)

theorem witness_AddressOutOfRangeExactly :
    MemoryAddressed .move ∧
    (nextOf (exec (.move ⟨.valid, 0x10⟩) s1)).map State.outcome = some (.fault .addressOutOfRange) ∧
    (∀ mk, MemoryAddressed mk → ∀ o, Instr.jmp ⟨.valid, 0x10⟩ ≠ mk o) ∧
    ∀ mk, MemoryAddressed mk → ∀ o, Instr.unknown32to63 63 ⟨.valid, 0xFF⟩ ≠ mk o := by
  refine ⟨.inr (.inl rfl), by decide, ?_, ?_⟩ <;>
    (intro mk h o; rcases h with rfl | rfl | rfl | rfl | rfl | rfl <;> simp)

theorem witness_AFaultChangesNothing :
    (nextOf (exec (.jz ⟨.absent, 0x0A⟩) s1)).map State.outcome = some (.fault .malformedOperand) := by decide

theorem witness_OutputsShowTheOutcome :
    faultOf (.inc ⟨.absent, 0⟩) = none ∧ faultOf (.unknown16to31 16 ⟨.absent, 0⟩) = some .unknownInstruction ∧
    faultOf (.jmp ⟨.absent, 0⟩) = some .malformedOperand ∧ faultOf (.lda ⟨.valid, 0x10⟩) = some .addressOutOfRange := by
  decide

theorem witness_AFaultDoesNotStopTheRun :
    (s1.load [0x0A00, 0x3C00]).rst = false ∧ (s1.load [0x0A00, 0x3C00]).seq.stopped = false ∧
    (s1.load [0x0A00, 0x3C00]).seq.pending = 0x0A00 :: [0x3C00] ∧
    faultOf (decode 0x0A00) = some .malformedOperand := by decide

theorem witness_ZeroFlagHasNoWriterAndOneReader : ∀ o, Instr.inc ⟨.absent, 0⟩ ≠ .jz o := by
  intro o
  simp

theorem witness_CarryFlagWritersAndReader :
    isRotate (.inc ⟨.absent, 0⟩) = false ∧ isRotate (.rlc ⟨.absent, 0⟩) = true ∧ ∀ o, Instr.inc ⟨.absent, 0⟩ ≠ .jc o := by
  simp [isRotate]

theorem witness_PcAfterEachInstruction :
    (⟨.valid, 0xFF⟩ : Operand).status = .valid ∧ s1.cpu.zf = true ∧ State.reset.cpu.zf = false ∧ s1.cpu.cf = true ∧
    State.reset.cpu.cf = false ∧ faultOf (.lda ⟨.valid, 0x0F⟩) = none ∧ faultOf (.lda ⟨.valid, 0x10⟩) ≠ none ∧
    s1.params.pcAdvanceAll = true ∧ State.reset.params.pcAdvanceAll = false := by decide

theorem witness_AdvancesByParameter : AdvancesByParameter .lda ∧ AdvancesByParameter .dec := by
  simp [AdvancesByParameter]

theorem witness_AccumulatorAccess : Jump .jz ∧ faultOf (.move ⟨.valid, 0x0F⟩) = none := ⟨.inr (.inl rfl), by decide⟩

theorem witness_MemoryAccess :
    isStore (.inc ⟨.absent, 0⟩) = false ∧ ∀ f, ReadsMemory f → ∀ o, Instr.inc ⟨.absent, 0⟩ ≠ f o := by
  refine ⟨rfl, ?_⟩
  rintro f (rfl | rfl | rfl | rfl | rfl) o <;> simp

theorem witness_ExecutionHasNoHistory :
    ({ s1 with outcome := .halt }).cpu = s1.cpu ∧ ({ s1 with outcome := .halt }).params = s1.params ∧
    ({ s1 with outcome := .halt }) ≠ s1 := by decide

theorem witness_ParameterDecidesPcOnly :
    ∀ f, AdvancesByParameter f → ∀ o, Instr.nop ⟨.absent, 0⟩ ≠ f o := by
  rintro f (rfl | rfl | rfl | rfl | rfl | rfl | rfl | rfl | rfl | rfl | rfl) o <;> simp

theorem witness_TheDatapathDoesNotSteerTheSequencer :
    (s1.setZf false).rst = s1.rst ∧ (s1.setZf false).seq.pending = s1.seq.pending ∧
    (s1.setZf false).seq.stopped = s1.seq.stopped ∧ (nextOf (step s1)).isSome = true ∧
    (nextOf (step (s1.setZf false))).isSome = true ∧ s1.setZf false ≠ s1 := by decide

theorem witness_MemWriteThenMemRead :
    (0xE : CellAddr) ≠ 0xF ∧ (⟨.valid, 0x0F⟩ : Operand).status = .valid ∧ (0x0F : Byte).toNat = (0xF : CellAddr).toNat := by
  decide

theorem witness_EveryStepKeepsMemoryCanonical :
    Memory.wf s1.cpu.mem = true ∧ (nextOf (step s1)).map (fun t => t.cpu.mem) = some [(0, 0x7E), (15, 0x96)] := by decide

theorem witness_CanonicalMemoriesThatReadAlikeAreEqual :
    s1.MemCanonical ∧ (s1.setZf false).MemCanonical ∧ CellsKept s1 (s1.setZf false) := ⟨rfl, rfl, fun _ => rfl⟩

theorem witness_ZeroFlagStaysClear :
    State.reset.cpu.zf = false ∧ (nextOf (step State.reset)).isSome = true ∧
    (⟨.valid, 0x0A⟩ : Operand).status = .valid := by decide

theorem witness_EveryStepKeepsTheSequencerConsistent : s1.seq.Consistent ∧ (nextOf (step s1)).isSome = true := by
  refine ⟨⟨by simp [s1], by simp [s1]⟩, by decide⟩

theorem witness_RunProcessesInstructionsInOrder :
    (nextOf (exec (decode 0x3C00) s1)).map State.outcome = some .halt ∧
    (nextOf (exec (decode 0x3800) s1)).map State.outcome = some .ok := by decide

theorem witness_RunListsOneOutcomePerExecutedInstruction :
    (∀ w ∈ [(0x3800 : InstrWord), 0x0A00], isHalt (decode w) = false) ∧
    ([0x3800, 0x3C00, 0x3800] : List InstrWord) = [0x3800] ++ 0x3C00 :: [0x3800] ∧ isHalt (decode 0x3C00) = true := by
  refine ⟨fun w hw => ?_, rfl, rfl⟩
  rcases List.mem_pair.mp hw with rfl | rfl <;> rfl

theorem witness_SteppingALoadedMachineIsRun : s1.rst = false ∧ ([0x3800, 0x3C00] : List InstrWord).length ≤ 2 := by decide

theorem witness_MnemonicsAreCaseInsensitive :
    ('@'.toNat < 97) ∧ (122 < '~'.toNat) ∧ "lda".toList.map foldChar = "LDA".toList.map foldChar ∧
    "LOAD".toList.map foldChar ∉ mnemonicNumbers.map Prod.fst ∧
    "halt".toList.map foldChar ∈ mnemonicNumbers.map Prod.fst := by decide

theorem witness_HexadecimalOperands :
    hexDigit 'f' = some 15 ∧ hexDigit '0' = some 0 ∧ (∀ n < 10, 'G' ≠ Char.ofNat (48 + n)) ∧
    (∀ n < 6, 'G' ≠ Char.ofNat (65 + n) ∧ 'G' ≠ Char.ofNat (97 + n)) ∧ "".toList.length = 0 ∧
    2 < ['1', '0', '0'].length ∧ (∃ c ∈ ['F', 'O', 'O'], hexDigit c = none) := by
  refine ⟨rfl, rfl, by decide, by decide, rfl, by decide, 'O', by simp, rfl⟩

end Sys2Proof.Tests
end

section
/-! PROOFS. The open parameter `PC_ADVANCE_ALL` (00_scope.md R6, 92 D6): the answers that one instruction gives at
two values of the parameter, compared. -/

namespace Sys2Proof.Machine

/-- The instruction is none of the eleven whose effect on `PC` is `Adv(PC)`. -/
def PcIgnoresParameter (i : Instr) : Prop := ∀ mk, AdvancesByParameter mk → ∀ o, i ≠ mk o

/-- `c` and `c'` are what `i` leaves of the datapath at two values of the parameter: only `PC` may differ, and it
does so only for one of the eleven. -/
def DifferInPcOnly (i : Instr) (c c' : CpuState) : Prop :=
  c' = { c with pc := c'.pc } ∧ (PcIgnoresParameter i → c' = c)

theorem DifferInPcOnly.refl (i : Instr) (c : CpuState) : DifferInPcOnly i c c := ⟨rfl, fun _ => rfl⟩

/-- One of the eleven may leave `PC` different. -/
theorem DifferInPcOnly.of_advances {mk : Operand → Instr} (h : AdvancesByParameter mk) {o : Operand}
    {c c' : CpuState} (hc : c' = { c with pc := c'.pc }) : DifferInPcOnly (mk o) c c' :=
  ⟨hc, fun hi => absurd rfl (hi mk h o)⟩

theorem DifferInPcOnly.frame {i : Instr} {c c' : CpuState} (h : DifferInPcOnly i c c') :
    c'.acc = c.acc ∧ c'.mem = c.mem ∧ c'.cf = c.cf ∧ c'.zf = c.zf := by
  rw [h.1]
  exact ⟨rfl, rfl, rfl, rfl⟩

/-- `x` and `y` are the answers of `i` in `s` and in `s` with the parameter `p`: one outcome, and datapaths that
differ in `PC` only. -/
def AnswersDifferInPcOnly (i : Instr) (s : State) (p : Params) (x y : Host.Outcome State Fault Refusal) : Prop :=
  ∃ c c' r, x = .next { s with cpu := c, outcome := r } ∧
    y = .next { s with params := p, cpu := c', outcome := r } ∧ DifferInPcOnly i c c'

section
variable {i : Instr} {s : State} {p : Params}

theorem complete_differInPcOnly {c c' : CpuState} (h : DifferInPcOnly i c c') :
    AnswersDifferInPcOnly i s p (complete s c) (complete { s with params := p } c') :=
  ⟨c, c', .ok, rfl, rfl, h⟩

theorem raise_differInPcOnly (k : FaultKind) :
    AnswersDifferInPcOnly i s p (raise s k) (raise { s with params := p } k) :=
  ⟨s.cpu, s.cpu, .fault k, rfl, rfl, .refl i s.cpu⟩

/-- The operand's checks do not see the parameter, so the effects alone can make a difference. -/
theorem withAddress_differInPcOnly {o : Operand} {f f' : CellAddr → CpuState}
    (h : ∀ ea, DifferInPcOnly i (f ea) (f' ea)) :
    AnswersDifferInPcOnly i s p (withAddress o s f) (withAddress o { s with params := p } f') := by
  unfold withAddress
  cases memoryAddress o with
  | error k => exact raise_differInPcOnly k
  | ok ea => exact complete_differInPcOnly (h ea)

/-- A jump whose effect is the same at both values of the parameter. -/
theorem withTarget_differInPcOnly {o : Operand} {f : Byte → CpuState} :
    AnswersDifferInPcOnly i s p (withTarget o s f) (withTarget o { s with params := p } f) := by
  unfold withTarget
  cases requiredOperand o with
  | error k => exact raise_differInPcOnly k
  | ok target => exact complete_differInPcOnly (.refl i _)

end

/-- What the parameter can change in the answer of any instruction: `PC`, and that only for the eleven. -/
theorem exec_params_differInPcOnly (i : Instr) (s : State) (p : Params) :
    AnswersDifferInPcOnly i s p (exec i s) (exec i { s with params := p }) := by
  cases i with
  | nop o => exact complete_differInPcOnly (.refl _ _)
  | lda o => exact withAddress_differInPcOnly fun _ => .of_advances (by simp [AdvancesByParameter]) rfl
  | and o => exact withAddress_differInPcOnly fun _ => .of_advances (by simp [AdvancesByParameter]) rfl
  | ora o => exact withAddress_differInPcOnly fun _ => .of_advances (by simp [AdvancesByParameter]) rfl
  | xor o => exact withAddress_differInPcOnly fun _ => .of_advances (by simp [AdvancesByParameter]) rfl
  | invert o => exact complete_differInPcOnly (.of_advances (by simp [AdvancesByParameter]) rfl)
  | jmp o => exact withTarget_differInPcOnly
  | jz o => exact withTarget_differInPcOnly
  | jc o => exact withTarget_differInPcOnly
  | rlc o => exact complete_differInPcOnly (.of_advances (by simp [AdvancesByParameter]) rfl)
  | rrc o => exact complete_differInPcOnly (.of_advances (by simp [AdvancesByParameter]) rfl)
  | store o => exact withAddress_differInPcOnly fun _ => .of_advances (by simp [AdvancesByParameter]) rfl
  | move o => exact withAddress_differInPcOnly fun _ => .of_advances (by simp [AdvancesByParameter]) rfl
  | dec o => exact complete_differInPcOnly (.of_advances (by simp [AdvancesByParameter]) rfl)
  | inc o => exact complete_differInPcOnly (.of_advances (by simp [AdvancesByParameter]) rfl)
  | halt o => exact ⟨s.cpu, s.cpu, .halt, rfl, rfl, .refl _ s.cpu⟩
  | unknown16to31 opc o => exact raise_differInPcOnly _
  | unknown32to63 opc o => exact raise_differInPcOnly _

/-- Settles O44: the parameter reaches a step through the effect on `PC` of the eleven data instructions alone. -/
theorem parameterDecidesPcOnly : Obligations.ParameterDecidesPcOnly := by
  intro i s p
  obtain ⟨c, c', r, ht, ht', hdiff⟩ := exec_params_differInPcOnly i s p
  obtain ⟨hacc, hmem, hcf, hzf⟩ := hdiff.frame
  exact ⟨_, _, ht, ht', rfl, hacc, hmem, hcf, hzf, fun hi => congrArg CpuState.pc (hdiff.2 hi)⟩

end Sys2Proof.Machine
end

section
/-! PROOFS. What an instruction leaves, as one function of the instruction and the state: the datapath and the outcome
after it (R80, R134), so that a claim about `exec` becomes a claim about the components of `effectOf`. -/

namespace Sys2Proof.Machine

/-! ### Operands that raise no fault -/

/-- The cell that the byte of an operand names, `opd[3:0]` (R33). -/
def addressedCell (o : Operand) : CellAddr := o.value.extractLsb' 0 4

theorem addressFault_none_iff (o : Operand) : addressFault o = none ↔ o.status = .valid ∧ o.value.toNat < 16 := by
  unfold addressFault
  by_cases h : o.status = .valid <;> simp [h, Nat.lt_succ_iff]

theorem missingOperandFault_none_iff (o : Operand) : missingOperandFault o = none ↔ o.status = .valid := by
  simp [missingOperandFault]

theorem memoryAddress_of_faultFree {o : Operand} (h : addressFault o = none) :
    memoryAddress o = .ok (addressedCell o) := by
  obtain ⟨hvalid, hlt⟩ := (addressFault_none_iff o).mp h
  exact (memoryAddress_ok_iff o _).mpr ⟨hvalid, (toNat_lowNibble hlt).symm⟩

theorem requiredOperand_of_faultFree {o : Operand} (h : missingOperandFault o = none) :
    requiredOperand o = .ok o.value :=
  (requiredOperand_ok_iff o _).mpr ⟨(missingOperandFault_none_iff o).mp h, rfl⟩

/-! ### The answer of every instruction -/

/-- The datapath after the instruction, if it raises no fault. -/
def effectOf (i : Instr) (s : State) : CpuState :=
  match i with
  | .nop _ => { s.cpu with pc := pcPlusOne s.cpu.pc }
  | .lda o => loadEffect s (addressedCell o)
  | .and o => logicEffect (fun a m => a &&& m) s (addressedCell o)
  | .ora o => logicEffect (fun a m => a ||| m) s (addressedCell o)
  | .xor o => logicEffect (fun a m => a ^^^ m) s (addressedCell o)
  | .invert _ => { s.cpu with acc := complement s.cpu.acc, pc := adv s.params s.cpu.pc }
  | .jmp o => jumpEffect true s o.value
  | .jz o => jumpEffect s.cpu.zf s o.value
  | .jc o => jumpEffect s.cpu.cf s o.value
  | .rlc _ => { s.cpu with acc := rotateLeft s.cpu.acc, cf := carryOfRotateLeft s.cpu.acc,
                           pc := adv s.params s.cpu.pc }
  | .rrc _ => { s.cpu with acc := rotateRight s.cpu.acc, cf := carryOfRotateRight s.cpu.acc,
                           pc := adv s.params s.cpu.pc }
  | .store o => { s.cpu.setCell (addressedCell o) s.cpu.acc with pc := adv s.params s.cpu.pc }
  | .move o => loadEffect s (addressedCell o)
  | .dec _ => { s.cpu with acc := decrement s.cpu.acc, pc := adv s.params s.cpu.pc }
  | .inc _ => { s.cpu with acc := increment s.cpu.acc, pc := adv s.params s.cpu.pc }
  | .halt _ => s.cpu
  | .unknown16to31 _ _ => s.cpu
  | .unknown32to63 _ _ => s.cpu

/-- The outcome of the instruction, which no state decides: the fault of R134, else Halt for HALT, else Ok. -/
def outcomeOf (i : Instr) : StepOutcome :=
  match faultOf i with
  | some k => .fault k
  | none => if isHalt i then .halt else .ok

/-- The datapath after the instruction: as it was after a fault (R81). -/
def cpuAfter (i : Instr) (s : State) : CpuState :=
  match faultOf i with
  | some _ => s.cpu
  | none => effectOf i s

/-- The state after the instruction. -/
def stateAfter (i : Instr) (s : State) : State := { s with cpu := cpuAfter i s, outcome := outcomeOf i }

@[simp] theorem stateAfter_cpu (i : Instr) (s : State) : (stateAfter i s).cpu = cpuAfter i s := rfl
@[simp] theorem stateAfter_outcome (i : Instr) (s : State) : (stateAfter i s).outcome = outcomeOf i := rfl

theorem cpuAfter_of_faultFree {i : Instr} (h : faultOf i = none) (s : State) : cpuAfter i s = effectOf i s := by
  simp [cpuAfter, h]

theorem cpuAfter_of_fault {i : Instr} (h : faultOf i ≠ none) (s : State) : cpuAfter i s = s.cpu := by
  obtain ⟨k, hk⟩ := Option.ne_none_iff_exists'.mp h
  simp [cpuAfter, hk]

theorem exec_of_fault {i : Instr} {k : FaultKind} (h : faultOf i = some k) (s : State) :
    exec i s = .next { s with outcome := .fault k } := by
  cases i with
  | nop o => cases h
  | lda o => exact withAddress_of_error ((memoryAddress_error_iff o k).mpr h) s _
  | and o => exact withAddress_of_error ((memoryAddress_error_iff o k).mpr h) s _
  | ora o => exact withAddress_of_error ((memoryAddress_error_iff o k).mpr h) s _
  | xor o => exact withAddress_of_error ((memoryAddress_error_iff o k).mpr h) s _
  | invert o => cases h
  | jmp o => exact withTarget_of_error ((requiredOperand_error_iff o k).mpr h) s _
  | jz o => exact withTarget_of_error ((requiredOperand_error_iff o k).mpr h) s _
  | jc o => exact withTarget_of_error ((requiredOperand_error_iff o k).mpr h) s _
  | rlc o => cases h
  | rrc o => cases h
  | store o => exact withAddress_of_error ((memoryAddress_error_iff o k).mpr h) s _
  | move o => exact withAddress_of_error ((memoryAddress_error_iff o k).mpr h) s _
  | dec o => cases h
  | inc o => cases h
  | halt o => cases h
  | unknown16to31 opc o => cases h; rfl
  | unknown32to63 opc o => cases h; rfl

theorem exec_of_faultFree {i : Instr} (h : faultOf i = none) (s : State) :
    exec i s = .next { s with cpu := effectOf i s, outcome := if isHalt i then .halt else .ok } := by
  cases i with
  | nop o => rfl
  | lda o => exact withAddress_of_ok (memoryAddress_of_faultFree h) s _
  | and o => exact withAddress_of_ok (memoryAddress_of_faultFree h) s _
  | ora o => exact withAddress_of_ok (memoryAddress_of_faultFree h) s _
  | xor o => exact withAddress_of_ok (memoryAddress_of_faultFree h) s _
  | invert o => rfl
  | jmp o => exact withTarget_of_ok (requiredOperand_of_faultFree h) s _
  | jz o => exact withTarget_of_ok (requiredOperand_of_faultFree h) s _
  | jc o => exact withTarget_of_ok (requiredOperand_of_faultFree h) s _
  | rlc o => rfl
  | rrc o => rfl
  | store o => exact withAddress_of_ok (memoryAddress_of_faultFree h) s _
  | move o => exact withAddress_of_ok (memoryAddress_of_faultFree h) s _
  | dec o => rfl
  | inc o => rfl
  | halt o => rfl
  | unknown16to31 opc o => cases h
  | unknown32to63 opc o => cases h

/-- What every instruction answers in every state (R80). -/
theorem exec_eq (i : Instr) (s : State) : exec i s = .next (stateAfter i s) := by
  cases h : faultOf i with
  | none => simp [exec_of_faultFree h, stateAfter, cpuAfter, outcomeOf, h]
  | some k => simp [exec_of_fault h, stateAfter, cpuAfter, outcomeOf, h]

/-! ### From the effect to the answer -/

/-- A component of the datapath that the effect keeps is kept by the instruction, since a fault keeps all. -/
theorem cpuAfter_keeps {α : Type} (field : CpuState → α) {i : Instr} {s : State}
    (h : field (effectOf i s) = field s.cpu) : field (cpuAfter i s) = field s.cpu := by
  by_cases hf : faultOf i = none
  · rw [cpuAfter_of_faultFree hf, h]
  · rw [cpuAfter_of_fault hf]

/-- If exchanging a part of the datapath commutes with the effect, it commutes with the instruction: the exchange
before the step changes that part of the answer alone. -/
theorem exec_exchange (f : CpuState → CpuState) {i : Instr} {s : State}
    (h : effectOf i { s with cpu := f s.cpu } = f (effectOf i s)) :
    exec i { s with cpu := f s.cpu } = .next { stateAfter i s with cpu := f (cpuAfter i s) } := by
  by_cases hf : faultOf i = none
  · simp [exec_eq, stateAfter, cpuAfter_of_faultFree hf, h]
  · simp [exec_eq, stateAfter, cpuAfter_of_fault hf]

/-- If a fault-free instruction has the same effect after an exchange in the datapath, its answer is the same. -/
theorem exec_overwrites (f : CpuState → CpuState) {i : Instr} {s : State} (hf : faultOf i = none)
    (h : effectOf i { s with cpu := f s.cpu } = effectOf i s) : exec i { s with cpu := f s.cpu } = exec i s := by
  simp [exec_of_faultFree hf, h]

/-- Settles O5: an instruction's answer is always a next state, and so is a reset's and an idle step's. -/
theorem everyStepAnswersANextState : Obligations.EveryStepAnswersANextState := by
  refine ⟨fun i s => ⟨_, exec_eq i s⟩, fun s => ?_⟩
  obtain ⟨-, h⟩ | ⟨-, -, h⟩ | ⟨_, _, -, -, -, h⟩ := step_cases s
  · exact ⟨_, h⟩
  · exact ⟨_, h⟩
  · exact ⟨_, h⟩

end Sys2Proof.Machine
end

section
/-! PROOFS. Who reads and who writes each component of the datapath (10_state.md R11, R13, R15, R16, R18, R19, R24). For
every component: what `effectOf` leaves in it, and what exchanging it before the step does to `effectOf`. -/

namespace Sys2Proof.Machine

/-! ### The zero flag (R15, R24) -/

/-- No instruction writes `ZF`. -/
@[simp] theorem cpuAfter_zf (i : Instr) (s : State) : (cpuAfter i s).zf = s.cpu.zf :=
  cpuAfter_keeps CpuState.zf (by cases i <;> rfl)

/-- Only JZ reads `ZF`. -/
theorem effectOf_setZf {i : Instr} (h : ∀ o, i ≠ .jz o) (s : State) (b : Bool) :
    effectOf i (s.setZf b) = { effectOf i s with zf := b } := by
  cases i with
  | jz o => exact absurd rfl (h o)
  | _ => rfl

/-- Settles O38: no effect has `ZF` among its results, and JZ's alone has it among its inputs. -/
theorem zeroFlagHasNoWriterAndOneReader : Obligations.ZeroFlagHasNoWriterAndOneReader := by
  refine ⟨fun i s => ⟨_, exec_eq i s, cpuAfter_zf i s⟩, fun i s b hjz => ?_, fun _ => rfl⟩
  exact ⟨_, exec_eq i s, exec_exchange (fun c => { c with zf := b }) (effectOf_setZf hjz s b)⟩

/-! ### The carry flag (R16, R18) -/

/-- Only the rotates write `CF`. -/
theorem cpuAfter_cf {i : Instr} (h : isRotate i = false) (s : State) : (cpuAfter i s).cf = s.cpu.cf :=
  cpuAfter_keeps CpuState.cf (by
    cases i with
    | rlc o => cases h
    | rrc o => cases h
    | _ => rfl)

/-- Of the instructions that leave `CF` alone, only JC reads it. -/
theorem effectOf_setCf {i : Instr} (hrot : isRotate i = false) (hjc : ∀ o, i ≠ .jc o) (s : State) (b : Bool) :
    effectOf i (s.setCf b) = { effectOf i s with cf := b } := by
  cases i with
  | rlc o => cases hrot
  | rrc o => cases hrot
  | jc o => exact absurd rfl (hjc o)
  | _ => rfl

/-- A rotate does not read `CF`: it is no rotate through the carry. -/
theorem exec_rotate_setCf {i : Instr} (h : isRotate i = true) (s : State) (b : Bool) :
    exec i (s.setCf b) = exec i s := by
  cases i with
  | rlc o => exact exec_overwrites (fun c => { c with cf := b }) rfl rfl
  | rrc o => exact exec_overwrites (fun c => { c with cf := b }) rfl rfl
  | _ => cases h

/-- Settles O39: `CF` is a result of the rotates' effects alone, and an input of JC's alone. -/
theorem carryFlagWritersAndReader : Obligations.CarryFlagWritersAndReader := by
  refine ⟨fun i s => ⟨_, exec_eq i s, cpuAfter_zf i s⟩, fun s o => ⟨_, exec_eq (.rlc o) s, rfl⟩,
    fun s o => ⟨_, exec_eq (.rrc o) s, rfl⟩, fun i s hrot => ⟨_, exec_eq i s, cpuAfter_cf hrot s⟩,
    fun i s b hrot hjc => ?_, fun i s b hrot => exec_rotate_setCf hrot s b⟩
  exact ⟨_, exec_eq i s, exec_exchange (fun c => { c with cf := b }) (effectOf_setCf hrot hjc s b)⟩

/-! ### The program counter (R13, R14) -/

theorem toNat_pcPlusOne (pc : Byte) : (pcPlusOne pc).toNat = (pc.toNat + 1) % 256 := BitVec.toNat_add pc 1

theorem pcPlusOne_of_pc {s t : State} (h : t.cpu.pc = pcPlusOne s.cpu.pc) : PcPlusOne s t := by
  rw [PcPlusOne, h, toNat_pcPlusOne]

theorem pcAdvanced_of_pc {s t : State} (h : t.cpu.pc = adv s.params s.cpu.pc) : PcAdvanced s t := by
  refine ⟨fun hp => ?_, fun hp => pcPlusOne_of_pc ?_⟩
  · simp [h, adv, hp]
  · simp [h, adv, hp]

/-- The fault-free effect of the eleven data instructions on `PC`. -/
theorem effectOf_pc_of_advances {mk : Operand → Instr} (h : AdvancesByParameter mk) (o : Operand) (s : State) :
    (effectOf (mk o) s).pc = adv s.params s.cpu.pc := by
  obtain rfl | rfl | rfl | rfl | rfl | rfl | rfl | rfl | rfl | rfl | rfl := h <;> rfl

/-- A jump with a valid operand raises no fault. -/
theorem faultOf_jump_of_valid {mk : Operand → Instr} (h : Jump mk) {o : Operand} (ho : o.status = .valid) :
    faultOf (mk o) = none := by
  obtain rfl | rfl | rfl := h <;> exact (missingOperandFault_none_iff o).mpr ho

theorem jumpEffect_pc (taken : Bool) (s : State) (target : Byte) :
    (jumpEffect taken s target).pc = if taken then target else pcPlusOne s.cpu.pc := rfl

theorem cpuAfter_jmp {o : Operand} (ho : o.status = .valid) (s : State) :
    cpuAfter (.jmp o) s = jumpEffect true s o.value :=
  cpuAfter_of_faultFree (faultOf_jump_of_valid (.inl rfl) ho) s

theorem cpuAfter_jz {o : Operand} (ho : o.status = .valid) (s : State) :
    cpuAfter (.jz o) s = jumpEffect s.cpu.zf s o.value :=
  cpuAfter_of_faultFree (faultOf_jump_of_valid (.inr (.inl rfl)) ho) s

theorem cpuAfter_jc {o : Operand} (ho : o.status = .valid) (s : State) :
    cpuAfter (.jc o) s = jumpEffect s.cpu.cf s o.value :=
  cpuAfter_of_faultFree (faultOf_jump_of_valid (.inr (.inr rfl)) ho) s

/-- A jump that is taken leaves its target in `PC`. -/
theorem pc_of_jumpTaken {s t : State} {taken : Bool} {target : Byte} (ht : t.cpu = jumpEffect taken s target)
    (h : taken = true) : t.cpu.pc = target := by
  rw [ht, jumpEffect_pc, if_pos h]

/-- A jump that is not taken counts `PC` up. -/
theorem pcPlusOne_of_jumpNotTaken {s t : State} {taken : Bool} {target : Byte}
    (ht : t.cpu = jumpEffect taken s target) (h : taken = false) : PcPlusOne s t :=
  pcPlusOne_of_pc (by rw [ht, jumpEffect_pc, if_neg (by simp [h])])

/-- Settles O40: the rows of R13, each from the instruction's effect on `PC`. -/
theorem pcAfterEachInstruction : Obligations.PcAfterEachInstruction := by
  refine ⟨fun s o => ?nop, fun s o ho => ?jmp, fun s o ho => ?jz, fun s o ho => ?jc, fun mk hmk s o hf => ?data,
    fun s o => ?halt, fun i s hf => ?faulting⟩
  case nop => exact ⟨_, exec_eq _ s, pcPlusOne_of_pc rfl⟩
  case jmp => exact ⟨_, exec_eq _ s, pc_of_jumpTaken (cpuAfter_jmp ho s) rfl⟩
  case jz =>
    exact ⟨_, exec_eq _ s, pc_of_jumpTaken (cpuAfter_jz ho s), pcPlusOne_of_jumpNotTaken (cpuAfter_jz ho s)⟩
  case jc =>
    exact ⟨_, exec_eq _ s, pc_of_jumpTaken (cpuAfter_jc ho s), pcPlusOne_of_jumpNotTaken (cpuAfter_jc ho s)⟩
  case data =>
    refine ⟨_, exec_eq _ s, pcAdvanced_of_pc ?_⟩
    rw [stateAfter_cpu, cpuAfter_of_faultFree hf, effectOf_pc_of_advances hmk]
  case halt => exact ⟨_, exec_eq _ s, rfl⟩
  case faulting => exact ⟨_, exec_eq _ s, congrArg CpuState.pc (cpuAfter_of_fault hf s)⟩

/-- Settles O52: no instruction writes `ZF` and reset clears it, so JZ finds it clear. -/
theorem zeroFlagStaysClear : Obligations.ZeroFlagStaysClear := by
  refine ⟨rfl, fun s t hs hstep => ?_, fun s o hs ho => ?_⟩
  · refine step_keeps (fun s => s.cpu.zf = false) (fun _ _ => rfl) (fun s t w _ hs hexec => ?_) hstep hs
    cases (exec_eq (decode w) s).symm.trans hexec
    exact (cpuAfter_zf (decode w) s).trans hs
  · exact ⟨_, exec_eq _ s, pcPlusOne_of_jumpNotTaken (cpuAfter_jz ho s) hs⟩

/-! ### The accumulator (R11) -/

/-- NOP, HALT and the jumps do not write the accumulator. -/
theorem effectOf_acc {mk : Operand → Instr} (h : mk = .nop ∨ mk = .halt ∨ Jump mk) (o : Operand) (s : State) :
    (effectOf (mk o) s).acc = s.cpu.acc := by
  obtain rfl | rfl | rfl | rfl | rfl := h <;> rfl

/-- NOP, HALT and the jumps do not read the accumulator. -/
theorem effectOf_setAcc {mk : Operand → Instr} (h : mk = .nop ∨ mk = .halt ∨ Jump mk) (o : Operand) (s : State)
    (a : Byte) : effectOf (mk o) (s.setAcc a) = { effectOf (mk o) s with acc := a } := by
  obtain rfl | rfl | rfl | rfl | rfl := h <;> rfl

/-- LDA and MOVE overwrite the accumulator without reading it. -/
theorem effectOf_load_setAcc {mk : Operand → Instr} (h : mk = .lda ∨ mk = .move) (o : Operand) (s : State)
    (a : Byte) : effectOf (mk o) (s.setAcc a) = effectOf (mk o) s := by
  obtain rfl | rfl := h <;> rfl

/-- Settles O41: which effects have the accumulator among their inputs and their results. -/
theorem accumulatorAccess : Obligations.AccumulatorAccess := by
  refine ⟨fun mk hmk o s a => ?_, fun mk hmk o s a hf => ?_, fun o s => ?_⟩
  · exact ⟨_, exec_eq _ s, cpuAfter_keeps CpuState.acc (effectOf_acc hmk o s),
      exec_exchange (fun c => { c with acc := a }) (effectOf_setAcc hmk o s a)⟩
  · exact exec_overwrites (fun c => { c with acc := a }) hf (effectOf_load_setAcc hmk o s a)
  · exact ⟨_, exec_eq _ s, cpuAfter_keeps CpuState.acc rfl⟩

/-! ### The memory (R19, R32) -/

/-- Only STORE writes memory. -/
theorem effectOf_mem {i : Instr} (h : isStore i = false) (s : State) : (effectOf i s).mem = s.cpu.mem := by
  cases i with
  | store o => cases h
  | _ => rfl

/-- Of the instructions that leave memory alone, only the five of R32 read it. -/
theorem effectOf_setMem {i : Instr} (hstore : isStore i = false) (hread : ∀ mk, ReadsMemory mk → ∀ o, i ≠ mk o)
    (s : State) (m : Memory) : effectOf i (s.setMem m) = { effectOf i s with mem := m } := by
  cases i with
  | store o => cases hstore
  | lda o => exact absurd rfl (hread .lda (by simp [ReadsMemory]) o)
  | move o => exact absurd rfl (hread .move (by simp [ReadsMemory]) o)
  | and o => exact absurd rfl (hread .and (by simp [ReadsMemory]) o)
  | ora o => exact absurd rfl (hread .ora (by simp [ReadsMemory]) o)
  | xor o => exact absurd rfl (hread .xor (by simp [ReadsMemory]) o)
  | _ => rfl

/-- What memory STORE finds decides nothing but the memory it leaves. -/
theorem cpuAfter_store_setMem (o : Operand) (s : State) (m : Memory) :
    cpuAfter (.store o) (s.setMem m) =
      { cpuAfter (.store o) s with mem := (cpuAfter (.store o) (s.setMem m)).mem } := by
  by_cases hf : faultOf (.store o) = none
  · simp only [cpuAfter_of_faultFree hf]; rfl
  · simp only [cpuAfter_of_fault hf]; rfl

/-- Settles O42: memory is a result of STORE's effect alone, and an input of the five readers' alone. -/
theorem memoryAccess : Obligations.MemoryAccess := by
  refine ⟨fun i s hstore => ?_, fun i s m hstore hread => ?_, fun o s m => ?_⟩
  · exact ⟨_, exec_eq i s, cpuAfter_keeps CpuState.mem (effectOf_mem hstore s)⟩
  · exact ⟨_, exec_eq i s, exec_exchange (fun c => { c with mem := m }) (effectOf_setMem hstore hread s m)⟩
  · refine ⟨_, _, exec_eq _ s, exec_eq _ _, rfl, ?_⟩
    rw [stateAfter_cpu, stateAfter_cpu, cpuAfter_store_setMem]
    exact ⟨rfl, rfl, rfl, rfl⟩

end Sys2Proof.Machine
end

section
/-! PROOFS. The memory's canonical form (log entry 13) and the reset state (10_state.md R21). -/

namespace Sys2Proof.Machine

/-- Below its first entry's address a canonical memory reads as unlisted. -/
theorem read_below_of_wf {c : Host.Cell} {m : Memory} (h : Memory.wf (c :: m) = true) {a : Nat} (ha : a < c.1) :
    Memory.read (c :: m) a = Memory.unlisted := by
  obtain ⟨-, -, hrise, -⟩ := (wf_cons c m).mp h
  refine read_of_not_listed fun d hd => ?_
  obtain rfl | hd := List.mem_cons.mp hd
  · omega
  · have := hrise d hd
    omega

theorem read_head (c : Host.Cell) (m : Memory) : Memory.read (c :: m) c.1 = c.2 := if_pos rfl

/-- A canonical memory reads at its first entry's address as no unlisted cell does. -/
theorem read_head_ne_unlisted {c : Host.Cell} {m : Memory} (h : Memory.wf (c :: m) = true) :
    Memory.read (c :: m) c.1 ≠ Memory.unlisted := by
  obtain ⟨-, hne, -, -⟩ := (wf_cons c m).mp h
  rwa [read_head]

/-- Where `c :: m` has its first entry, a canonical memory that reads alike cannot begin only above. -/
theorem head_le_of_read_eq {c d : Host.Cell} {m m' : Memory} (h : Memory.wf (c :: m) = true)
    (h' : Memory.wf (d :: m') = true) (hread : Memory.read (c :: m) c.1 = Memory.read (d :: m') c.1) :
    d.1 ≤ c.1 := by
  by_contra hlt
  exact read_head_ne_unlisted h (hread.trans (read_below_of_wf h' (by omega)))

/-- Canonical memories with the same first entry that read alike have tails that read alike. -/
theorem read_tail_eq {c : Host.Cell} {m m' : Memory} (h : Memory.wf (c :: m) = true)
    (h' : Memory.wf (c :: m') = true) {a : Nat} (hread : Memory.read (c :: m) a = Memory.read (c :: m') a) :
    Memory.read m a = Memory.read m' a := by
  obtain ⟨-, -, hrise, -⟩ := (wf_cons c m).mp h
  obtain ⟨-, -, hrise', -⟩ := (wf_cons c m').mp h'
  by_cases ha : c.1 = a
  · subst ha
    rw [read_of_not_listed fun d hd => (hrise d hd).ne', read_of_not_listed fun d hd => (hrise' d hd).ne']
  · rwa [read_cons, read_cons, if_neg ha, if_neg ha] at hread

/-- Canonical memories that read alike in the 16 cells are one list. -/
theorem eq_of_read_eq {m m' : Memory} (h : Memory.wf m = true) (h' : Memory.wf m' = true)
    (hread : ∀ a < 16, Memory.read m a = Memory.read m' a) : m = m' := by
  induction m generalizing m' with
  | nil =>
    cases m' with
    | nil => rfl
    | cons d m' =>
      obtain ⟨hd, -, -, -⟩ := (wf_cons d m').mp h'
      exact absurd (hread d.1 hd).symm (read_head_ne_unlisted h')
  | cons c m ih =>
    obtain ⟨hc, -, -, hm⟩ := (wf_cons c m).mp h
    cases m' with
    | nil => exact absurd (hread c.1 hc) (read_head_ne_unlisted h)
    | cons d m' =>
      obtain ⟨hd, -, -, hm'⟩ := (wf_cons d m').mp h'
      have haddr : c.1 = d.1 :=
        Nat.le_antisymm (head_le_of_read_eq h' h (hread d.1 hd).symm) (head_le_of_read_eq h h' (hread c.1 hc))
      have hvalue : c.2 = d.2 := by
        have := hread c.1 hc
        rwa [read_head, haddr, read_head] at this
      obtain rfl : c = d := Prod.ext haddr hvalue
      rw [ih hm hm' fun a ha => read_tail_eq h h' (hread a ha)]

/-- Settles O49: the first entries of the two lists agree, and then the tails read alike. -/
theorem canonicalMemoriesThatReadAlikeAreEqual : Obligations.CanonicalMemoriesThatReadAlikeAreEqual := by
  intro s s' hs hs' hcells
  refine eq_of_read_eq hs' hs fun a ha => ?_
  simpa [CpuState.cell, Nat.mod_eq_of_lt ha] using hcells (BitVec.ofNat 4 a)

/-- After reset every cell reads 0x00. -/
@[simp] theorem cell_reset (a : CellAddr) : CpuState.reset.cell a = 0x00 := read_nil a.toNat

/-- Settles O1: the five components of `CpuState.reset`. -/
theorem resetLeavesEverythingZero : Obligations.ResetLeavesEverythingZero :=
  ⟨rfl, rfl, rfl, rfl, fun j => congrArg BitVec.toNat (cell_reset j)⟩

/-- Settles O47: the empty list of cells is canonical. -/
theorem memoryIsCanonicalAtReset : Obligations.MemoryIsCanonicalAtReset := wf_reset

end Sys2Proof.Machine
end

section
/-! PROOFS. The memory operations and the operands that address it (20_memory.md R33, R35, R37): which operands are
accepted, what the memory-addressed instructions do at the addressed cell, and that every step keeps the canonical
form (log entry 13). -/

namespace Sys2Proof.Machine

/-! ### The canonical form (R30, R37) -/

/-- Only STORE writes memory, and it writes one of the 16 cells. -/
theorem wf_effectOf (i : Instr) {s : State} (h : Memory.wf s.cpu.mem = true) :
    Memory.wf (effectOf i s).mem = true := by
  cases hstore : isStore i with
  | false => rwa [effectOf_mem hstore]
  | true =>
    cases i with
    | store o => exact wf_setCell (addressedCell o) s.cpu.acc h
    | _ => cases hstore

theorem memCanonical_stateAfter (i : Instr) {s : State} (h : s.MemCanonical) : (stateAfter i s).MemCanonical := by
  by_cases hf : faultOf i = none
  · rw [State.MemCanonical, stateAfter_cpu, cpuAfter_of_faultFree hf]
    exact wf_effectOf i h
  · rwa [State.MemCanonical, stateAfter_cpu, cpuAfter_of_fault hf]

/-- Settles O48: reset empties the list of cells, every instruction keeps its form, and the sequencer has no part in
it. -/
theorem everyStepKeepsMemoryCanonical : Obligations.EveryStepKeepsMemoryCanonical := by
  intro s t hs hstep
  refine step_keeps State.MemCanonical (fun _ _ => wf_reset) (fun s t w _ hs hexec => ?_) hstep hs
  cases (exec_eq (decode w) s).symm.trans hexec
  exact memCanonical_stateAfter (decode w) hs

/-! ### Which operands are accepted (R33, R35) -/

/-- The two spellings of R33 for a valid address. -/
theorem toNat_le_15_iff_highNibble (b : Byte) : b.toNat ≤ 15 ↔ b.extractLsb' 4 4 = 0 := by
  have hb := b.isLt
  simp only [← BitVec.toNat_inj, BitVec.extractLsb'_toNat, Nat.shiftRight_eq_div_pow, BitVec.ofNat_eq_ofNat,
    BitVec.toNat_ofNat]
  omega

theorem MemoryAddressed.of_reads {mk : Operand → Instr} (h : ReadsMemory mk) : MemoryAddressed mk := by
  obtain rfl | rfl | rfl | rfl | rfl := h <;> simp [MemoryAddressed]

/-- The six check their operand as a memory address and check nothing else. -/
theorem faultOf_memoryAddressed {mk : Operand → Instr} (h : MemoryAddressed mk) (o : Operand) :
    faultOf (mk o) = addressFault o := by
  obtain rfl | rfl | rfl | rfl | rfl | rfl := h <;> rfl

theorem isHalt_memoryAddressed {mk : Operand → Instr} (h : MemoryAddressed mk) (o : Operand) :
    isHalt (mk o) = false := by
  obtain rfl | rfl | rfl | rfl | rfl | rfl := h <;> rfl

theorem isHalt_jump {mk : Operand → Instr} (h : Jump mk) (o : Operand) : isHalt (mk o) = false := by
  obtain rfl | rfl | rfl := h <;> rfl

/-- An instruction other than HALT that raises no fault completes. -/
theorem outcomeOf_of_faultFree {i : Instr} (hf : faultOf i = none) (hhalt : isHalt i = false) :
    outcomeOf i = .ok := by
  simp [outcomeOf, hf, hhalt]

/-- A byte up to 0x0F is accepted as a memory address. -/
theorem addressFault_of_inRange {o : Operand} (ho : o.status = .valid) (hle : o.value.toNat ≤ 15) :
    addressFault o = none :=
  (addressFault_none_iff o).mpr ⟨ho, Nat.lt_succ_of_le hle⟩

/-- A byte above 0x0F is refused as a memory address. -/
theorem addressFault_of_outOfRange {o : Operand} (ho : o.status = .valid) (hlt : 15 < o.value.toNat) :
    addressFault o = some .addressOutOfRange := by
  rw [addressFault, if_pos ho, if_pos hlt]

/-- Settles O31: a jump's only check is that the operand is valid, whatever its byte. -/
theorem jumpTargetsAreNotValidated : Obligations.JumpTargetsAreNotValidated := by
  refine ⟨fun mk hmk s o ho => ?_, fun s o ho htarget => ?_⟩
  · exact ⟨_, exec_eq (mk o) s, outcomeOf_of_faultFree (faultOf_jump_of_valid hmk ho) (isHalt_jump hmk o)⟩
  · exact ⟨_, exec_eq (.jmp o) s, (pc_of_jumpTaken (cpuAfter_jmp ho s) rfl).trans htarget⟩

/-! ### The addressed cell (R33, R36, R37) -/

/-- The cell that a byte up to 0x0F names has that byte as its address. -/
theorem addressedCell_eq {o : Operand} {ea : CellAddr} (h : o.value.toNat = ea.toNat) : addressedCell o = ea :=
  BitVec.eq_of_toNat_eq ((toNat_lowNibble (h.trans_lt ea.isLt)).trans h)

/-- What a fault-free STORE leaves in every cell: the accumulator in the addressed one, the others as they were. -/
theorem cell_cpuAfter_store {o : Operand} (hf : addressFault o = none) (s : State) (j : CellAddr) :
    (cpuAfter (.store o) s).cell j = (s.cpu.setCell (addressedCell o) s.cpu.acc).cell j :=
  cell_congr (congrArg CpuState.mem (cpuAfter_of_faultFree (i := .store o) hf s)) j

theorem cell_cpuAfter_store_same {o : Operand} (hf : addressFault o = none) (s : State) :
    (cpuAfter (.store o) s).cell (addressedCell o) = s.cpu.acc := by
  rw [cell_cpuAfter_store hf, cell_setCell_same]

theorem cell_cpuAfter_store_other {o : Operand} (hf : addressFault o = none) (s : State) {j : CellAddr}
    (hj : j ≠ addressedCell o) : (cpuAfter (.store o) s).cell j = s.cpu.cell j := by
  rw [cell_cpuAfter_store hf, cell_setCell_other _ _ hj]

theorem acc_cpuAfter_lda {o : Operand} (hf : addressFault o = none) (s : State) :
    (cpuAfter (.lda o) s).acc = s.cpu.cell (addressedCell o) :=
  congrArg CpuState.acc (cpuAfter_of_faultFree (i := .lda o) hf s)

/-- LDA writes no cell. -/
theorem cell_cpuAfter_lda (o : Operand) (s : State) (j : CellAddr) :
    (cpuAfter (.lda o) s).cell j = s.cpu.cell j :=
  cpuAfter_keeps (CpuState.cell · j) (cell_congr (effectOf_mem rfl s) j)

/-- The five readers compute the accumulator from the accumulator and the addressed cell. -/
theorem effectOf_acc_of_reads {mk : Operand → Instr} (h : ReadsMemory mk) {o : Operand} {s s' : State}
    (hacc : s'.cpu.acc = s.cpu.acc) (hcell : s'.cpu.cell (addressedCell o) = s.cpu.cell (addressedCell o)) :
    (effectOf (mk o) s').acc = (effectOf (mk o) s).acc := by
  obtain rfl | rfl | rfl | rfl | rfl := h <;> simp [effectOf, loadEffect, logicEffect, hacc, hcell]

/-- Settles O46: LDA reads back what STORE wrote, by the law of reading a written cell. -/
theorem memWriteThenMemRead : Obligations.MemWriteThenMemRead := by
  refine ⟨fun c addr v => ?_, fun s o ea ho hea => ?_⟩
  · exact ⟨cell_setCell_same c addr v, fun j hj => cell_setCell_other c v hj, rfl, rfl, rfl, rfl⟩
  · have hf : addressFault o = none := (addressFault_none_iff o).mpr ⟨ho, hea.trans_lt ea.isLt⟩
    have hstored := cell_cpuAfter_store_same hf s
    refine ⟨_, _, exec_eq (.store o) s, exec_eq (.lda o) _, ?_, ?_⟩
    · exact (acc_cpuAfter_lda hf _).trans hstored
    · rw [← addressedCell_eq hea]
      exact (cell_cpuAfter_lda o _ _).trans hstored

/-- Settles O30: the check of the address decides between the fault and an effect at the addressed cell. -/
theorem addressValidation : Obligations.AddressValidation := by
  refine ⟨toNat_le_15_iff_highNibble, fun mk hmk s o ho => ⟨fun hle => ?inRange, fun hlt => ?outOfRange⟩,
    fun mk hmk s s' o ho hle _ hacc hcell => ?readers, fun s o ho hle => ?store⟩
  case inRange =>
    have hf := addressFault_of_inRange ho hle
    exact ⟨memoryAddress_of_faultFree hf, _, exec_eq (mk o) s,
      outcomeOf_of_faultFree ((faultOf_memoryAddressed hmk o).trans hf) (isHalt_memoryAddressed hmk o)⟩
  case outOfRange =>
    exact exec_of_fault ((faultOf_memoryAddressed hmk o).trans (addressFault_of_outOfRange ho hlt)) s
  case readers =>
    have hf : faultOf (mk o) = none :=
      (faultOf_memoryAddressed (.of_reads hmk) o).trans (addressFault_of_inRange ho hle)
    refine ⟨_, _, exec_eq (mk o) s, exec_eq (mk o) s', ?_⟩
    rw [stateAfter_cpu, stateAfter_cpu, cpuAfter_of_faultFree hf, cpuAfter_of_faultFree hf]
    exact effectOf_acc_of_reads hmk hacc hcell
  case store =>
    have hf := addressFault_of_inRange ho hle
    exact ⟨_, exec_eq (.store o) s, cell_cpuAfter_store_same hf s, fun j hj => cell_cpuAfter_store_other hf s hj⟩

end Sys2Proof.Machine
end

section
/-! PROOFS. Decoding and encoding (30_encoding.md R58 to R61): each undoes the other, decoding in arithmetic, and the 18
rows of the opcode table. -/

namespace Sys2Proof

/-! ### Decoding undoes encoding (R58, R59, R60) -/

/-- The opcode number of a well-formed instruction selects the instruction. -/
theorem instrOf_opcode {i : Instr} (h : i.wf = true) : instrOf i.opcode i.operand = i := by
  cases i with
  | unknown16to31 opc o =>
    obtain ⟨hlow, hhigh⟩ : 16 ≤ opc.toNat ∧ opc.toNat ≤ 31 := of_decide_eq_true h
    exact (instrOf_unknown opc o hlow).trans (if_pos (Nat.lt_succ_of_le hhigh))
  | unknown32to63 opc o =>
    have hlow : 32 ≤ opc.toNat := of_decide_eq_true h
    exact (instrOf_unknown opc o (by omega)).trans (if_neg (by omega))
  | _ => rfl

/-- Decoding a word packed from an opcode number and an operand's fields. -/
theorem decode_packWord (opc : OpcodeNum) (o : Operand) :
    decode (packWord opc o.status.pBit o.status.vBit o.value) = instrOf opc o := by
  simp [decode, decodeOperand]

/-- Settles O9: the packed fields are read back, and the opcode number selects the instruction it was taken from. -/
theorem decodeOfEncodeIsTheInstruction : Obligations.DecodeOfEncodeIsTheInstruction := fun i h =>
  (decode_packWord i.opcode i.operand).trans (instrOf_opcode h)

/-- Settles O6: the words are evaluated. -/
theorem sampleWordsDecode : Obligations.SampleWordsDecode := by
  unfold Obligations.SampleWordsDecode
  decide

/-! ### Encoding undoes decoding, but for an ignored `V` (R60) -/

/-- The bit `P` in arithmetic. -/
theorem pField_eq (w : InstrWord) : pField w = decide (w.toNat / 512 % 2 = 1) :=
  Nat.testBit_eq_decide_div_mod_eq

/-- The bit `V` in arithmetic. -/
theorem vField_eq (w : InstrWord) : vField w = decide (w.toNat / 256 % 2 = 1) :=
  Nat.testBit_eq_decide_div_mod_eq

@[simp] theorem pBit_operandStatus (p v : Bool) : (operandStatus p v).pBit = p := by
  cases p <;> cases v <;> rfl

/-- The bit `V` is lost where `P` is 0. -/
@[simp] theorem vBit_operandStatus (p v : Bool) : (operandStatus p v).vBit = (p && v) := by
  cases p <;> cases v <;> rfl

/-- Whatever an opcode number selects is well-formed. -/
theorem wf_instrOf (opc : OpcodeNum) (o : Operand) : (instrOf opc o).wf = true := by
  by_cases h : opc.toNat < 16
  · unfold instrOf
    interval_cases opc.toNat <;> rfl
  · rw [instrOf_unknown opc o (Nat.le_of_not_lt h)]
    split
    · exact decide_eq_true (show 16 ≤ opc.toNat ∧ opc.toNat ≤ 31 by omega)
    · exact decide_eq_true (show 32 ≤ opc.toNat by omega)

/-- Encoding a decoded word keeps every field but `V`, which becomes `P && V`. -/
theorem encode_decode (w : InstrWord) :
    encode (decode w) = packWord (opcField w) (pField w) (pField w && vField w) (opdField w) := by
  simp [encode, decode, operand_instrOf, opcode_instrOf, decodeOperand]

/-- Settles O10: `P && V` is `V` unless `P` is 0 and `V` is 1. -/
theorem encodeOfDecodeIsTheWord : Obligations.EncodeOfDecodeIsTheWord := by
  intro w
  refine ⟨wf_instrOf _ _, fun h => ?_, fun hp hv => ?_⟩
  · have hkept : (pField w && vField w) = vField w := by
      obtain hp | hv := h
      · simp [pField_eq, hp]
      · simp [vField_eq, hv]
    rw [encode_decode, hkept, packWord_fields]
  · have hp : pField w = false := by simp [pField_eq, hp]
    have hv : vField w = true := by simp [vField_eq, hv]
    have hw := toNat_fields w
    rw [hp, hv] at hw
    rw [encode_decode, toNat_packWord, hp, hv, Bool.false_and, hw, Bool.toNat_false, Bool.toNat_true]
    omega

/-! ### The encoded word in arithmetic (R58, R59) -/

theorem toNat_pBit (s : OperandStatus) : s.pBit.toNat * 512 = if s = .absent then 0 else 512 := by
  cases s <;> rfl

theorem toNat_vBit (s : OperandStatus) : s.vBit.toNat * 256 = if s = .valid then 256 else 0 := by
  cases s <;> rfl

/-- Settles O8: the sum that a packed word is, with the bits of an operand status. -/
theorem encodedWordIsTheSumOfItsFields : Obligations.EncodedWordIsTheSumOfItsFields := by
  refine ⟨fun i _ => ?_, fun _ => by simp [Instr.opcode], fun opc o h => ?_, fun opc o h => ?_⟩
  · rw [encode, toNat_packWord, toNat_pBit, toNat_vBit]
  · exact (of_decide_eq_true h : 16 ≤ opc.toNat ∧ opc.toNat ≤ 31).1
  · exact (of_decide_eq_true h : 32 ≤ opc.toNat)

end Sys2Proof

namespace Sys2Proof.Machine

/-! ### The opcode number alone selects the instruction (R60, R61) -/

/-- A word whose opcode number is that of `mk` decodes to `mk`. -/
theorem opcodeSelects_of_opcode {n : Nat} {mk : Operand → Instr}
    (h : ∀ o, (mk o).wf = true ∧ (mk o).operand = o ∧ (mk o).opcode.toNat = n) : OpcodeSelects n mk := by
  intro w hw
  obtain ⟨hwf, hoperand, hopcode⟩ := h (decodeOperand w)
  have hfield : opcField w = (mk (decodeOperand w)).opcode :=
    BitVec.eq_of_toNat_eq ((toNat_opcField w).trans (Eq.trans hw hopcode.symm))
  refine ⟨decodeOperand w, ?_, hasOperand_decodeOperand w⟩
  calc decode w = instrOf (mk (decodeOperand w)).opcode (mk (decodeOperand w)).operand := by
        rw [hoperand, ← hfield, decode]
    _ = mk (decodeOperand w) := instrOf_opcode hwf

/-- The words with opcode numbers 16 to 31. -/
theorem decode_16to31 {w : InstrWord} (hlow : 16 ≤ w.toNat / 1024) (hhigh : w.toNat / 1024 ≤ 31) :
    decode w = .unknown16to31 (opcField w) (decodeOperand w) := by
  rw [← toNat_opcField] at hlow hhigh
  exact (instrOf_unknown _ _ hlow).trans (if_pos (Nat.lt_succ_of_le hhigh))

/-- The words with opcode numbers 32 to 63. -/
theorem decode_32to63 {w : InstrWord} (h : 32 ≤ w.toNat / 1024) :
    decode w = .unknown32to63 (opcField w) (decodeOperand w) := by
  rw [← toNat_opcField] at h
  exact (instrOf_unknown _ _ (by omega)).trans (if_neg (by omega))

/-- Settles O29: the two rows of unknown words execute as one raised fault. -/
theorem unknownOpcodesRaiseUnknownInstruction : Obligations.UnknownOpcodesRaiseUnknownInstruction := by
  refine ⟨fun w h s => ?_, fun _ _ s => exec_of_fault rfl s, fun _ _ s => exec_of_fault rfl s⟩
  by_cases hhigh : w.toNat / 1024 ≤ 31
  · rw [decode_16to31 h hhigh]
    exact exec_of_fault rfl s
  · rw [decode_32to63 (by omega)]
    exact exec_of_fault rfl s

/-! ### The rows of the opcode table partition the words (R60) -/

theorem row_mem_opcodeTable (i : Instr) : i.row ∈ opcodeTable := by
  cases i <;> simp [Instr.row, opcodeTable]

/-- The row of an instruction does not depend on its operand fields. -/
theorem row_instrOf (opc : OpcodeNum) (o o' : Operand) : (instrOf opc o).row = (instrOf opc o').row := by
  unfold instrOf
  split <;> try rfl
  split <;> rfl

/-- A row's mask has no bit of the operand fields. -/
theorem mask_of_mem_opcodeTable : ∀ r ∈ opcodeTable, r.mask = packWord (opcField r.mask) false false 0 := by
  decide

/-- A row looks at the opcode number only. -/
theorem selects_eq_selects_opcode {r : OpcodeRow} (h : r ∈ opcodeTable) (w : InstrWord) :
    r.selects w = r.selects (packWord (opcField w) false false 0) := by
  have hmask : w &&& r.mask = packWord (opcField w) false false 0 &&& r.mask := by
    rw [mask_of_mem_opcodeTable r h, Laws.EncodedRow.unknownMask, ← packWord_fields w, Laws.EncodedRow.unknownMask,
      opcField_packWord]
  rw [OpcodeRow.selects, OpcodeRow.selects, hmask]

/-- The table, row by row: which of the 64 opcode numbers it selects. -/
theorem selects_opcode_iff : ∀ opc : OpcodeNum, ∀ r ∈ opcodeTable,
    r.selects (packWord opc false false 0) = true ↔ r = (instrOf opc ⟨.absent, 0⟩).row := by
  decide

/-- Settles O7: the arithmetic of decoding for the fields and, since a row looks at the opcode number only, a table of
64 numbers for the partition. -/
theorem decodeReadsTheFieldsAndTheRowsPartition : Obligations.DecodeReadsTheFieldsAndTheRowsPartition := by
  refine ⟨?_, ?_, ?_, ?_, ?_, ?_, ?_, ?_, ?_, ?_, ?_, ?_, ?_, ?_, ?_, ?_, fun w hlow hhigh => ?row16to31,
    fun w hlow => ?row32to63, rfl, fun w => ⟨row_mem_opcodeTable _, fun r hr => ?partition⟩⟩
  case row16to31 =>
    exact ⟨_, _, decode_16to31 hlow hhigh, toNat_opcField w, hasOperand_decodeOperand w⟩
  case row32to63 =>
    exact ⟨_, _, decode_32to63 hlow, toNat_opcField w, hasOperand_decodeOperand w⟩
  case partition =>
    rw [selects_eq_selects_opcode hr, selects_opcode_iff _ r hr, decode, row_instrOf]
  all_goals exact opcodeSelects_of_opcode fun _ => ⟨rfl, rfl, rfl⟩

end Sys2Proof.Machine
end

section
/-! PROOFS. Operand fields that have no effect on an instruction's answer (30_encoding.md R50, R62; 93 U9). -/

namespace Sys2Proof.Machine

/-- Settles O11: the meaning of an instruction that takes no operand does not mention it. -/
theorem ignoredOperandFieldsHaveNoEffect : Obligations.IgnoredOperandFieldsHaveNoEffect := by
  refine ⟨fun mk h o o' s => ?_, fun _ _ _ _ => rfl, fun _ _ _ _ => rfl⟩
  obtain rfl | rfl | rfl | rfl | rfl | rfl | rfl := h <;> rfl

theorem addressFault_of_not_valid {o : Operand} (h : o.status ≠ .valid) : addressFault o = some .malformedOperand :=
  if_neg h

theorem missingOperandFault_of_not_valid {o : Operand} (h : o.status ≠ .valid) :
    missingOperandFault o = some .malformedOperand :=
  if_neg h

/-- Two instructions that raise the same fault answer alike. -/
theorem exec_eq_of_fault {i j : Instr} {s : State} {k : FaultKind} (hi : faultOf i = some k)
    (hj : faultOf j = some k) : exec i s = exec j s :=
  (exec_of_fault hi s).trans (exec_of_fault hj s).symm

/-- Settles O12: an instruction that requires an operand raises the fault for a missing or malformed one whatever the
byte is, and any other ignores its operand fields. -/
theorem operandByteCountsOnlyWhenValid : Obligations.OperandByteCountsOnlyWhenValid := by
  intro i o s hi hsame
  have ho : o.status ≠ .valid := hsame.trans_ne hi
  cases i with
  | lda _ | and _ | ora _ | xor _ | store _ | move _ =>
    exact exec_eq_of_fault (addressFault_of_not_valid ho) (addressFault_of_not_valid hi)
  | jmp _ | jz _ | jc _ =>
    exact exec_eq_of_fault (missingOperandFault_of_not_valid ho) (missingOperandFault_of_not_valid hi)
  | _ => rfl

end Sys2Proof.Machine
end

section
/-! PROOFS. The assembler (30_encoding.md R53 to R55, R63): the opcode number of a mnemonic, case folding, and the value
of a hexadecimal operand. -/

namespace Sys2Proof

/-! ### Mnemonics and their opcode numbers (R51, R53, R59) -/

/-- A name of R51 selects the instruction of its opcode number. -/
theorem mnemonicInstr_of_mem {e : List Char × OpcodeNum} (h : e ∈ mnemonicNumbers) (o : Operand) :
    mnemonicInstr e.1 o = instrOf e.2 o := by
  fin_cases h <;> rfl

/-- Any other string is Unknown. -/
theorem mnemonicInstr_of_not_mem {m : List Char} (h : m ∉ mnemonicNumbers.map Prod.fst) (o : Operand) :
    mnemonicInstr m o = .unknown32to63 63 o := by
  simp only [mnemonicNumbers, List.map_cons, List.map_nil, List.mem_cons, List.not_mem_nil, or_false, not_or] at h
  simp [mnemonicInstr, h]

/-- The table gives a name its opcode number. -/
theorem mem_mnemonicNumbers_of_name {m : List Char} (h : foldMnemonic m ∈ mnemonicNumbers.map Prod.fst) :
    (foldMnemonic m, opcodeOfText m) ∈ mnemonicNumbers := by
  cases hfound : mnemonicNumbers.lookup (foldMnemonic m) with
  | none =>
    obtain ⟨e, he, hname⟩ := List.mem_map.mp h
    exact absurd hname.symm (bne_iff_ne.mp (List.lookup_eq_none_iff.mp hfound e he))
  | some opc =>
    obtain ⟨before, after, htable, -⟩ := List.lookup_eq_some_iff.mp hfound
    rw [opcodeOfText, hfound, Option.getD_some, htable]
    exact List.mem_append_cons_self

/-- A string that is no name has the number 63. -/
theorem opcodeOfText_of_not_name {m : List Char} (h : foldMnemonic m ∉ mnemonicNumbers.map Prod.fst) :
    opcodeOfText m = 63 := by
  have hnone : mnemonicNumbers.lookup (foldMnemonic m) = none :=
    List.lookup_eq_none_iff.mpr fun e he => bne_iff_ne.mpr fun heq => h (heq ▸ List.mem_map_of_mem he)
  rw [opcodeOfText, hnone, Option.getD_none]

theorem instrOf_opcodeOfText (m : List Char) (o : Operand) :
    instrOf (opcodeOfText m) o = mnemonicInstr (foldMnemonic m) o := by
  by_cases h : foldMnemonic m ∈ mnemonicNumbers.map Prod.fst
  · exact (mnemonicInstr_of_mem (mem_mnemonicNumbers_of_name h) o).symm
  · rw [opcodeOfText_of_not_name h, mnemonicInstr_of_not_mem h]
    rfl

/-! ### Decoding undoes assembling (R63) -/

theorem decode_assemble (ext : HexParseExt) (m : List Char) (token : Option (List Char)) :
    decode (assemble ext m token) = instrOfText ext m token :=
  (decode_packWord _ _).trans (instrOf_opcodeOfText m _)

/-- Settles O58: the decoder selects by the mnemonic's opcode number what the text names; the examples are evaluated. -/
theorem decodeOfAssembleIsTheTextsInstruction : Obligations.DecodeOfAssembleIsTheTextsInstruction :=
  ⟨decode_assemble, by decide⟩

/-! ### Case folding (R53) -/

theorem foldChar_of_not_lower {c : Char} (h : c.toNat < 97 ∨ 122 < c.toNat) : foldChar c = c :=
  if_neg fun ⟨hlow, hhigh⟩ => by
    change 97 ≤ c.toNat at hlow
    change c.toNat ≤ 122 at hhigh
    omega

/-- The assembler sees a mnemonic in its folded form only. -/
theorem assemble_congr {m m' : List Char} (h : foldMnemonic m = foldMnemonic m') (ext : HexParseExt)
    (token : Option (List Char)) : assemble ext m token = assemble ext m' token := by
  rw [assemble, assemble, opcodeOfText, opcodeOfText, h]

theorem mnemonicNumbers_le_15 : ∀ e ∈ mnemonicNumbers, e.2.toNat ≤ 15 := by
  decide

/-- Settles O59: what the table of names says of a folded mnemonic. -/
theorem mnemonicsAreCaseInsensitive : Obligations.MnemonicsAreCaseInsensitive := by
  refine ⟨by decide, fun c => foldChar_of_not_lower, fun ext m m' token h => assemble_congr h ext token,
    fun ext m token h => ?unknown, fun ext m token h => ?name⟩
  case unknown =>
    exact ⟨63, _, (decode_assemble ext m token).trans (mnemonicInstr_of_not_mem h _)⟩
  case name =>
    have hmem := mem_mnemonicNumbers_of_name h
    refine ⟨mnemonicNumbers_le_15 _ hmem, hmem, ?_⟩
    rw [Machine.HasOpcode, ← toNat_opcField, assemble, opcField_packWord]

/-! ### Hexadecimal operands (R54) -/

/-- A character whose code is one of the `k` from `base` up. -/
theorem eq_ofNat_of_range {c : Char} {base k : Nat} (hlow : base ≤ c.toNat) (hhigh : c.toNat < base + k) :
    ∃ n < k, c = Char.ofNat (base + n) :=
  ⟨c.toNat - base, by omega, by rw [Nat.add_sub_cancel' hlow, Char.ofNat_toNat]⟩

/-- No character but the ones of R54 is a digit. -/
theorem hexDigit_of_other {c : Char} (hdecimal : ∀ n < 10, c ≠ Char.ofNat (48 + n))
    (hletter : ∀ n < 6, c ≠ Char.ofNat (65 + n) ∧ c ≠ Char.ofNat (97 + n)) : hexDigit c = none := by
  have h0 : ¬ ('0'.toNat ≤ c.toNat ∧ c.toNat ≤ '9'.toNat) := fun ⟨hlow, hhigh⟩ => by
    obtain ⟨n, hn, hc⟩ := eq_ofNat_of_range (base := 48) (k := 10) hlow (Nat.lt_succ_of_le hhigh)
    exact hdecimal n hn hc
  have hA : ¬ ('A'.toNat ≤ c.toNat ∧ c.toNat ≤ 'F'.toNat) := fun ⟨hlow, hhigh⟩ => by
    obtain ⟨n, hn, hc⟩ := eq_ofNat_of_range (base := 65) (k := 6) hlow (Nat.lt_succ_of_le hhigh)
    exact (hletter n hn).1 hc
  have ha : ¬ ('a'.toNat ≤ c.toNat ∧ c.toNat ≤ 'f'.toNat) := fun ⟨hlow, hhigh⟩ => by
    obtain ⟨n, hn, hc⟩ := eq_ofNat_of_range (base := 97) (k := 6) hlow (Nat.lt_succ_of_le hhigh)
    exact (hletter n hn).2 hc
  rw [hexDigit, if_neg h0, if_neg hA, if_neg ha]

theorem hexDigits_one {a : Char} {x : Nat} (h : hexDigit a = some x) : hexDigits [a] = some (BitVec.ofNat 8 x) := by
  simp [hexDigits, h]

theorem hexDigits_two {a c : Char} {x y : Nat} (hx : hexDigit a = some x) (hy : hexDigit c = some y) :
    hexDigits [a, c] = some (BitVec.ofNat 8 (16 * x + y)) := by
  simp [hexDigits, hx, hy]

/-- A spelling that is empty, longer than two characters, or holds a character that is no digit. -/
theorem hexDigits_none {s : List Char} (h : s.length = 0 ∨ 2 < s.length ∨ ∃ c ∈ s, hexDigit c = none) :
    hexDigits s = none := by
  match s with
  | [] => rfl
  | [a] =>
    have ha : hexDigit a = none := by simpa using h
    simp [hexDigits, ha]
  | [a, b] =>
    obtain ha | hb : hexDigit a = none ∨ hexDigit b = none := by simpa using h
    · simp [hexDigits, ha]
    · cases ha : hexDigit a <;> simp [hexDigits, ha, hb]
  | _ :: _ :: _ :: _ => rfl

theorem parseHexByte_of_digits {s : List Char} {b : Byte} (h : hexDigits s = some b) (ext : HexParseExt) :
    parseHexByte ext s = some b := by
  simp [parseHexByte, h]

theorem parseHexByte_of_other {s : List Char} (h : hexDigits s = none) (ext : HexParseExt) :
    parseHexByte ext s = ext s := by
  simp [parseHexByte, h]

/-- Settles O60: the value of one or two digits is below 256, so no bit of it is lost in a byte, and every other
spelling goes to the parameter. -/
theorem hexadecimalOperands : Obligations.HexadecimalOperands := by
  refine ⟨fun ext a x hx ha => ?one, fun ext a c x hx y hy ha hc => ?two, by decide, by decide,
    fun c => hexDigit_of_other, fun ext s h => parseHexByte_of_other (hexDigits_none h) ext⟩
  case one =>
    exact ⟨_, parseHexByte_of_digits (hexDigits_one ha) ext, Nat.mod_eq_of_lt (by omega)⟩
  case two =>
    exact ⟨_, parseHexByte_of_digits (hexDigits_two ha hc) ext, Nat.mod_eq_of_lt (by omega)⟩

end Sys2Proof
end

section
/-! PROOFS. What no instruction touches and what none depends on (40_step_nop.md R81, R83, R84; 44_halt_sequencer.md
R121): a fault leaves the whole state, NOP leaves all but `PC`, and the step has no history. -/

namespace Sys2Proof.Machine

/-! ### Faults and the environment (R80, R81) -/

/-- No instruction writes the parameter, the reset input or the sequencer. -/
theorem envKept_stateAfter (i : Instr) (s : State) : EnvKept s (stateAfter i s) := ⟨rfl, rfl, rfl⟩

/-- An instruction answers a fault exactly when R134 gives it one. -/
theorem outcomeOf_eq_fault_iff (i : Instr) (k : FaultKind) : outcomeOf i = .fault k ↔ faultOf i = some k := by
  unfold outcomeOf
  cases faultOf i with
  | some k' => simp
  | none => cases isHalt i <;> simp

/-- Settles O35: a fault in the outcome is a fault of R134, which is raised without an effect. -/
theorem aFaultChangesNothing : Obligations.AFaultChangesNothing := by
  intro i s t k hexec houtcome
  cases (exec_eq i s).symm.trans hexec
  have hcpu : (stateAfter i s).cpu = s.cpu :=
    cpuAfter_of_fault (by simp [(outcomeOf_eq_fault_iff i k).mp houtcome]) s
  rw [hcpu]
  exact ⟨rfl, rfl, rfl, rfl, rfl, fun j => congrArg (CpuState.cell · j) hcpu, envKept_stateAfter i s⟩

/-! ### The step has no history (R9, R84, R121) -/

/-- Every effect is computed from the datapath and the parameter. -/
theorem effectOf_congr (i : Instr) {s s' : State} (hcpu : s'.cpu = s.cpu) (hparams : s'.params = s.params) :
    effectOf i s' = effectOf i s := by
  obtain ⟨cpu, _, params, _, _⟩ := s
  cases hcpu
  cases hparams
  cases i <;> rfl

theorem cpuAfter_congr (i : Instr) {s s' : State} (hcpu : s'.cpu = s.cpu) (hparams : s'.params = s.params) :
    cpuAfter i s' = cpuAfter i s := by
  by_cases hf : faultOf i = none
  · rw [cpuAfter_of_faultFree hf, cpuAfter_of_faultFree hf, effectOf_congr i hcpu hparams]
  · rw [cpuAfter_of_fault hf, cpuAfter_of_fault hf, hcpu]

/-- Settles O43: the outcome is the instruction's alone, and the datapath after it has two inputs. -/
theorem executionHasNoHistory : Obligations.ExecutionHasNoHistory := by
  refine ⟨fun i s => ⟨_, exec_eq i s, envKept_stateAfter i s⟩, fun i s s' hcpu hparams => ?_⟩
  exact ⟨_, _, exec_eq i s, exec_eq i s', cpuAfter_congr i hcpu hparams, rfl⟩

/-! ### NOP (R83) -/

/-- Settles O13: NOP's effect replaces `PC` by its successor. -/
theorem nopAdvancesPcOnly : Obligations.NopAdvancesPcOnly := by
  refine ⟨opcodeSelects_of_opcode fun _ => ⟨rfl, rfl, rfl⟩, fun s o => ?_⟩
  exact ⟨_, exec_eq (.nop o) s, rfl, pcPlusOne_of_pc rfl, rfl, ⟨rfl, rfl⟩, fun _ => rfl,
    envKept_stateAfter (.nop o) s⟩

end Sys2Proof.Machine
end

section
/-! PROOFS. LDA, MOVE, AND, ORA, XOR, INVERT and STORE (41_load_logic_store.md R90 to R98). The five that read a cell
differ in one function alone, which gives the new accumulator from the old one and the cell. -/

namespace Sys2Proof.Machine

/-! ### The frame of a data instruction (R13, R15, R16, R19) -/

theorem pcAdvanced_stateAfter {mk : Operand → Instr} (h : AdvancesByParameter mk) {o : Operand}
    (hf : faultOf (mk o) = none) (s : State) : PcAdvanced s (stateAfter (mk o) s) := by
  apply pcAdvanced_of_pc
  rw [stateAfter_cpu, cpuAfter_of_faultFree hf, effectOf_pc_of_advances h]

/-- Only the rotates write a flag. -/
theorem flagsKept_stateAfter {i : Instr} (h : isRotate i = false) (s : State) : FlagsKept s (stateAfter i s) :=
  ⟨cpuAfter_cf h s, cpuAfter_zf i s⟩

/-- Only STORE writes a cell. -/
theorem cellsKept_stateAfter {i : Instr} (h : isStore i = false) (s : State) : CellsKept s (stateAfter i s) :=
  fun _ => cell_congr (cpuAfter_keeps CpuState.mem (effectOf_mem h s)) _

/-! ### Memory-addressed instructions (R97) -/

theorem AdvancesByParameter.of_memoryAddressed {mk : Operand → Instr} (h : MemoryAddressed mk) :
    AdvancesByParameter mk := by
  obtain rfl | rfl | rfl | rfl | rfl | rfl := h <;> simp [AdvancesByParameter]

theorem isRotate_memoryAddressed {mk : Operand → Instr} (h : MemoryAddressed mk) (o : Operand) :
    isRotate (mk o) = false := by
  obtain rfl | rfl | rfl | rfl | rfl | rfl := h <;> rfl

theorem isStore_readsMemory {mk : Operand → Instr} (h : ReadsMemory mk) (o : Operand) : isStore (mk o) = false := by
  obtain rfl | rfl | rfl | rfl | rfl := h <;> rfl

/-- The faults of the six are those of the check of their operand as a memory address. -/
theorem faultsAsMemoryAddressed {mk : Operand → Instr} (h : MemoryAddressed mk) : FaultsAsMemoryAddressed mk :=
  fun s o =>
    ⟨fun ho => exec_of_fault ((faultOf_memoryAddressed h o).trans (addressFault_of_not_valid ho)) s,
      fun ho hlt => exec_of_fault ((faultOf_memoryAddressed h o).trans (addressFault_of_outOfRange ho hlt)) s⟩

/-- A valid operand that is the address of a cell raises no fault. -/
theorem faultOf_memoryAddressed_of_cell {mk : Operand → Instr} (h : MemoryAddressed mk) {o : Operand} {ea : CellAddr}
    (ho : o.status = .valid) (hea : o.value.toNat = ea.toNat) : faultOf (mk o) = none :=
  (faultOf_memoryAddressed h o).trans ((addressFault_none_iff o).mpr ⟨ho, hea.trans_lt ea.isLt⟩)

/-! ### The five that read a cell (R90 to R94) -/

/-- A reader whose effect is `A <- f(A, MemRead(ea, 1)); PC <- Adv(PC)` completes with that accumulator and changes
nothing else. -/
theorem exec_reader_completes {mk : Operand → Instr} (hmk : ReadsMemory mk) (f : Byte → Byte → Byte)
    (heffect : ∀ o s, effectOf (mk o) s = logicEffect f s (addressedCell o)) {o : Operand} {ea : CellAddr}
    (ho : o.status = .valid) (hea : o.value.toNat = ea.toNat) (s : State) :
    ∃ t, exec (mk o) s = .next t ∧ t.outcome = .ok ∧ t.cpu.acc = f s.cpu.acc (s.cpu.cell ea) ∧
      PcAdvanced s t ∧ FlagsKept s t ∧ CellsKept s t ∧ EnvKept s t := by
  have haddr := MemoryAddressed.of_reads hmk
  have hf := faultOf_memoryAddressed_of_cell haddr ho hea
  refine ⟨_, exec_eq (mk o) s, outcomeOf_of_faultFree hf (isHalt_memoryAddressed haddr o), ?acc,
    pcAdvanced_stateAfter (.of_memoryAddressed haddr) hf s, flagsKept_stateAfter (isRotate_memoryAddressed haddr o) s,
    cellsKept_stateAfter (isStore_readsMemory hmk o) s, envKept_stateAfter (mk o) s⟩
  case acc =>
    rw [stateAfter_cpu, cpuAfter_of_faultFree hf, heffect, addressedCell_eq hea, logicEffect]

/-- Settles O14: LDA is the reader that takes the cell and drops the old accumulator. -/
theorem ldaLoadsTheAddressedCell : Obligations.LdaLoadsTheAddressedCell := by
  have hmk : ReadsMemory .lda := by simp [ReadsMemory]
  refine ⟨opcodeSelects_of_opcode fun _ => ⟨rfl, rfl, rfl⟩, faultsAsMemoryAddressed (.of_reads hmk), ?_⟩
  exact fun s o ea ho hea => exec_reader_completes hmk (fun _ m => m) (fun _ _ => rfl) ho hea s

/-- Settles O15: MOVE is the same reader as LDA. -/
theorem moveIsLdaUnderASecondMnemonic : Obligations.MoveIsLdaUnderASecondMnemonic := by
  have hmk : ReadsMemory .move := by simp [ReadsMemory]
  refine ⟨opcodeSelects_of_opcode fun _ => ⟨rfl, rfl, rfl⟩, faultsAsMemoryAddressed (.of_reads hmk),
    fun _ _ => rfl, ?_⟩
  exact fun s o ea ho hea => exec_reader_completes hmk (fun _ m => m) (fun _ _ => rfl) ho hea s

/-- Settles O16: AND is the reader whose function acts on each bit by `&&`. -/
theorem andIsTheBitwiseAndWithTheCell : Obligations.AndIsTheBitwiseAndWithTheCell := by
  have hmk : ReadsMemory .and := by simp [ReadsMemory]
  refine ⟨opcodeSelects_of_opcode fun _ => ⟨rfl, rfl, rfl⟩, faultsAsMemoryAddressed (.of_reads hmk),
    fun s o ea ho hea => ?_⟩
  obtain ⟨t, hexec, hok, hacc, hframe⟩ := exec_reader_completes hmk (· &&& ·) (fun _ _ => rfl) ho hea s
  refine ⟨t, hexec, hok, fun k _ => ?_, hframe⟩
  rw [hacc, BitVec.getLsbD_and, Bool.and_eq_true]

/-- Settles O17: ORA is the reader whose function acts on each bit by `||`. -/
theorem oraIsTheBitwiseOrWithTheCell : Obligations.OraIsTheBitwiseOrWithTheCell := by
  have hmk : ReadsMemory .ora := by simp [ReadsMemory]
  refine ⟨opcodeSelects_of_opcode fun _ => ⟨rfl, rfl, rfl⟩, faultsAsMemoryAddressed (.of_reads hmk),
    fun s o ea ho hea => ?_⟩
  obtain ⟨t, hexec, hok, hacc, hframe⟩ := exec_reader_completes hmk (· ||| ·) (fun _ _ => rfl) ho hea s
  refine ⟨t, hexec, hok, fun k _ => ?_, hframe⟩
  rw [hacc, BitVec.getLsbD_or, Bool.or_eq_true]

/-- Settles O18: XOR is the reader whose function says of each bit whether the two inputs differ. -/
theorem xorIsTheBitwiseExclusiveOrWithTheCell : Obligations.XorIsTheBitwiseExclusiveOrWithTheCell := by
  have hmk : ReadsMemory .xor := by simp [ReadsMemory]
  refine ⟨opcodeSelects_of_opcode fun _ => ⟨rfl, rfl, rfl⟩, faultsAsMemoryAddressed (.of_reads hmk),
    fun s o ea ho hea => ?_⟩
  obtain ⟨t, hexec, hok, hacc, hframe⟩ := exec_reader_completes hmk (· ^^^ ·) (fun _ _ => rfl) ho hea s
  refine ⟨t, hexec, hok, fun k _ => ?_, hframe⟩
  rw [hacc, BitVec.getLsbD_xor, Bool.xor_iff_ne, Ne, Bool.eq_iff_iff]

/-! ### INVERT (R95) -/

/-- The complement in arithmetic. -/
theorem toNat_complement (a : Byte) : (complement a).toNat = 255 - a.toNat := BitVec.toNat_not

/-- Settles O19: INVERT's effect replaces the accumulator by its complement and advances `PC`. -/
theorem invertComplementsTheAccumulator : Obligations.InvertComplementsTheAccumulator := by
  refine ⟨opcodeSelects_of_opcode fun _ => ⟨rfl, rfl, rfl⟩, fun s o => ?_⟩
  exact ⟨_, exec_eq (.invert o) s, rfl, toNat_complement s.cpu.acc, pcAdvanced_of_pc rfl,
    flagsKept_stateAfter rfl s, cellsKept_stateAfter rfl s, envKept_stateAfter (.invert o) s⟩

/-! ### STORE (R96) -/

/-- STORE writes memory and `PC` only. -/
theorem accKept_store (o : Operand) (s : State) : AccKept s (stateAfter (.store o) s) :=
  cpuAfter_keeps CpuState.acc (setCell_acc s.cpu (addressedCell o) s.cpu.acc)

/-- Settles O20: STORE's effect is one write, at the cell that the operand names. -/
theorem storeWritesTheAddressedCellOnly : Obligations.StoreWritesTheAddressedCellOnly := by
  have hmk : MemoryAddressed .store := by simp [MemoryAddressed]
  refine ⟨opcodeSelects_of_opcode fun _ => ⟨rfl, rfl, rfl⟩, faultsAsMemoryAddressed hmk, memoryAddress_ok_iff,
    fun s o ea hea => ?_⟩
  obtain ⟨ho, hvalue⟩ := (memoryAddress_ok_iff o ea).mp hea
  obtain rfl := addressedCell_eq hvalue
  have hf : addressFault o = none := faultOf_memoryAddressed_of_cell hmk ho hvalue
  exact ⟨_, exec_eq (.store o) s, outcomeOf_of_faultFree hf rfl, cell_cpuAfter_store_same hf s,
    fun j hj => cell_cpuAfter_store_other hf s hj, accKept_store o s,
    pcAdvanced_stateAfter (.of_memoryAddressed hmk) hf s, flagsKept_stateAfter rfl s,
    envKept_stateAfter (.store o) s⟩

end Sys2Proof.Machine
end

section
/-! PROOFS. The jumps (42_jumps.md R100 to R105) and what they do not do: the sequencer after a step is computed from the
reset input and the sequencer before it (R103), and the datapath is no input of it. -/

namespace Sys2Proof.Machine

/-! ### The sequencer after a step (R103, R123) -/

/-- The sequencer after a step. The outcome it takes is the presented instruction's alone, so no part of the datapath
occurs here. -/
def State.sequencerAfter (s : State) : Sequencer :=
  if s.rst then s.seq
  else
    match s.presented with
    | none => s.seq
    | some w => s.seq.accept (decode w) (outcomeOf (decode w))

theorem sequencerAfter_of_reset {s : State} (h : s.rst = true) : s.sequencerAfter = s.seq := by
  simp [State.sequencerAfter, h]

theorem sequencerAfter_of_nothingPresented {s : State} (h : s.presented = none) : s.sequencerAfter = s.seq := by
  simp [State.sequencerAfter, h]

theorem sequencerAfter_of_presented {s : State} {w : InstrWord} (hrst : s.rst = false) (h : s.presented = some w) :
    s.sequencerAfter = s.seq.accept (decode w) (outcomeOf (decode w)) := by
  simp [State.sequencerAfter, hrst, h]

theorem seq_of_step {s t : State} (h : step s = .next t) : t.seq = s.sequencerAfter := by
  obtain ⟨hrst, hstep⟩ | ⟨-, hnone, hstep⟩ | ⟨w, u, hrst, hsome, hexec, hstep⟩ := step_cases s
  · cases hstep.symm.trans h
    rw [sequencerAfter_of_reset hrst, applyReset_seq]
  · cases hstep.symm.trans h
    rw [sequencerAfter_of_nothingPresented hnone]
  · cases hstep.symm.trans h
    cases (exec_eq (decode w) s).symm.trans hexec
    rw [sequencerAfter_of_presented hrst hsome]
    rfl

/-! ### Sequencers that present alike -/

/-- The two have the same instructions left and the same stop; their lists of outcomes may differ. -/
def PresentAlike (q q' : Sequencer) : Prop := q'.pending = q.pending ∧ q'.stopped = q.stopped

theorem PresentAlike.presented_eq {s s' : State} (h : PresentAlike s.seq s'.seq) : s'.presented = s.presented := by
  obtain ⟨hpending, hstopped⟩ := h
  rw [State.presented, State.presented, hpending, hstopped]

/-- Sequencers that present alike and take the same outcome go on presenting alike. -/
theorem PresentAlike.accept {q q' : Sequencer} (h : PresentAlike q q') (i : Instr) (o : StepOutcome) :
    PresentAlike (q.accept i o) (q'.accept i o) :=
  ⟨congrArg List.tail h.1, rfl⟩

theorem PresentAlike.sequencerAfter {s s' : State} (hrst : s'.rst = s.rst) (h : PresentAlike s.seq s'.seq) :
    PresentAlike s.sequencerAfter s'.sequencerAfter := by
  cases hr : s.rst with
  | true => rwa [sequencerAfter_of_reset hr, sequencerAfter_of_reset (hrst.trans hr)]
  | false =>
    cases hp : s.presented with
    | none =>
      rwa [sequencerAfter_of_nothingPresented hp, sequencerAfter_of_nothingPresented (h.presented_eq.trans hp)]
    | some w =>
      rw [sequencerAfter_of_presented hr hp, sequencerAfter_of_presented (hrst.trans hr) (h.presented_eq.trans hp)]
      exact h.accept (decode w) (outcomeOf (decode w))

/-- Settles O45: the two steps take their sequencers, which present alike, to sequencers that present alike. -/
theorem theDatapathDoesNotSteerTheSequencer : Obligations.TheDatapathDoesNotSteerTheSequencer := by
  intro s s' t t' hrst hpending hstopped hstep hstep'
  have halike : PresentAlike t.seq t'.seq := by
    rw [seq_of_step hstep, seq_of_step hstep']
    exact PresentAlike.sequencerAfter hrst ⟨hpending, hstopped⟩
  exact ⟨halike.1, halike.2, halike.presented_eq⟩

/-! ### The three jumps (R100 to R102, R105) -/

/-- The three check that their operand is there and valid, and check nothing else. -/
theorem faultOf_jump {mk : Operand → Instr} (h : Jump mk) (o : Operand) : faultOf (mk o) = missingOperandFault o := by
  obtain rfl | rfl | rfl := h <;> rfl

theorem isRotate_jump {mk : Operand → Instr} (h : Jump mk) (o : Operand) : isRotate (mk o) = false := by
  obtain rfl | rfl | rfl := h <;> rfl

theorem isStore_jump {mk : Operand → Instr} (h : Jump mk) (o : Operand) : isStore (mk o) = false := by
  obtain rfl | rfl | rfl := h <;> rfl

theorem faultsAsJump {mk : Operand → Instr} (h : Jump mk) : FaultsAsJump mk :=
  fun s o ho => exec_of_fault ((faultOf_jump h o).trans (missingOperandFault_of_not_valid ho)) s

theorem accKept_jump {mk : Operand → Instr} (h : Jump mk) (o : Operand) (s : State) :
    AccKept s (stateAfter (mk o) s) :=
  cpuAfter_keeps CpuState.acc (effectOf_acc (.inr (.inr h)) o s)

/-- A jump on the condition `taken` completes with its target in `PC` if the condition holds and with `PC` counted up
if not, and changes nothing else. -/
theorem exec_jump_completes {mk : Operand → Instr} (hmk : Jump mk) {o : Operand} {s : State} {taken : Bool}
    (ho : o.status = .valid) (heffect : effectOf (mk o) s = jumpEffect taken s o.value) :
    ∃ t, exec (mk o) s = .next t ∧ t.outcome = .ok ∧ (taken = true → t.cpu.pc = o.value) ∧
      (taken = false → PcPlusOne s t) ∧ AccKept s t ∧ FlagsKept s t ∧ CellsKept s t ∧ EnvKept s t := by
  have hf := faultOf_jump_of_valid hmk ho
  have hcpu : (stateAfter (mk o) s).cpu = jumpEffect taken s o.value := (cpuAfter_of_faultFree hf s).trans heffect
  exact ⟨_, exec_eq (mk o) s, outcomeOf_of_faultFree hf (isHalt_jump hmk o), pc_of_jumpTaken hcpu,
    pcPlusOne_of_jumpNotTaken hcpu, accKept_jump hmk o s, flagsKept_stateAfter (isRotate_jump hmk o) s,
    cellsKept_stateAfter (isStore_jump hmk o) s, envKept_stateAfter (mk o) s⟩

/-- Settles O21: JMP is the jump whose condition always holds. -/
theorem jmpWritesTheTargetToPc : Obligations.JmpWritesTheTargetToPc := by
  have hmk : Jump .jmp := .inl rfl
  refine ⟨opcodeSelects_of_opcode fun _ => ⟨rfl, rfl, rfl⟩, faultsAsJump hmk, fun s o ho => ?_⟩
  obtain ⟨t, hexec, hok, htaken, -, hframe⟩ := exec_jump_completes (s := s) (taken := true) hmk ho rfl
  exact ⟨t, hexec, hok, htaken rfl, hframe⟩

/-- Settles O22: JZ is the jump on `ZF`. -/
theorem jzJumpsOnTheZeroFlag : Obligations.JzJumpsOnTheZeroFlag := by
  have hmk : Jump .jz := .inr (.inl rfl)
  exact ⟨opcodeSelects_of_opcode fun _ => ⟨rfl, rfl, rfl⟩, faultsAsJump hmk,
    fun s _ ho => exec_jump_completes (taken := s.cpu.zf) hmk ho rfl⟩

/-- Settles O23: JC is the jump on `CF`. -/
theorem jcJumpsOnTheCarryFlag : Obligations.JcJumpsOnTheCarryFlag := by
  have hmk : Jump .jc := .inr (.inr rfl)
  exact ⟨opcodeSelects_of_opcode fun _ => ⟨rfl, rfl, rfl⟩, faultsAsJump hmk,
    fun s _ ho => exec_jump_completes (taken := s.cpu.cf) hmk ho rfl⟩

end Sys2Proof.Machine
end

section
/-! PROOFS. The rotates, INC and DEC (43_rotate_incdec.md R110 to R114), and the repetitions that come round. A rotate
is seen as a renumbering of the eight bits, INC, DEC and `Adv` as additions of a constant modulo 256: eight equal
renumberings and 256 equal additions are each none at all. -/

namespace Sys2Proof.Machine

/-! ### The accumulator's arithmetic (R110 to R113) -/

theorem toNat_rotateLeft (a : Byte) : (rotateLeft a).toNat = a.toNat * 2 % 256 + a.toNat / 128 := by
  have ha := a.isLt
  rw [rotateLeft, toNat_append_add, BitVec.extractLsb'_toNat, BitVec.extractLsb'_toNat, Nat.shiftRight_eq_div_pow,
    Nat.shiftRight_eq_div_pow]
  omega

theorem toNat_rotateRight (a : Byte) : (rotateRight a).toNat = a.toNat / 2 + 128 * (a.toNat % 2) := by
  have ha := a.isLt
  rw [rotateRight, toNat_append_add, BitVec.extractLsb'_toNat, BitVec.extractLsb'_toNat, Nat.shiftRight_eq_div_pow,
    Nat.shiftRight_eq_div_pow]
  omega

theorem carryOfRotateLeft_iff (a : Byte) : carryOfRotateLeft a = true ↔ a.toNat / 128 = 1 := by
  have ha := a.isLt
  rw [carryOfRotateLeft, BitVec.getLsbD, Nat.testBit_eq_decide_div_mod_eq, decide_eq_true_iff]
  omega

theorem carryOfRotateRight_iff (a : Byte) : carryOfRotateRight a = true ↔ a.toNat % 2 = 1 := by
  rw [carryOfRotateRight, BitVec.getLsbD, Nat.testBit_eq_decide_div_mod_eq, decide_eq_true_iff]
  omega

theorem toNat_increment (a : Byte) : (increment a).toNat = (a.toNat + 1) % 256 := BitVec.toNat_add a 1

/-- The remainder of R113 is the non-negative one, so 0 gives 255. -/
theorem toNat_decrement (a : Byte) : ((decrement a).toNat : Int) = ((a.toNat : Int) - 1) % 256 := by
  have hsub : (decrement a).toNat = (255 + a.toNat) % 256 := BitVec.toNat_sub a 1
  omega

/-! ### RLC, RRC, INC and DEC (R110 to R113) -/

/-- Settles O24: RLC's effect rotates left, copies the old bit 7 to the carry and advances `PC`. -/
theorem rlcRotatesLeftIntoTheCarry : Obligations.RlcRotatesLeftIntoTheCarry := by
  refine ⟨opcodeSelects_of_opcode fun _ => ⟨rfl, rfl, rfl⟩, fun s o => ?_⟩
  exact ⟨_, exec_eq (.rlc o) s, rfl, toNat_rotateLeft s.cpu.acc, carryOfRotateLeft_iff s.cpu.acc,
    cpuAfter_zf (.rlc o) s, pcAdvanced_of_pc rfl, cellsKept_stateAfter rfl s, envKept_stateAfter (.rlc o) s⟩

/-- Settles O25: RRC's effect rotates right, copies the old bit 0 to the carry and advances `PC`. -/
theorem rrcRotatesRightIntoTheCarry : Obligations.RrcRotatesRightIntoTheCarry := by
  refine ⟨opcodeSelects_of_opcode fun _ => ⟨rfl, rfl, rfl⟩, fun s o => ?_⟩
  exact ⟨_, exec_eq (.rrc o) s, rfl, toNat_rotateRight s.cpu.acc, carryOfRotateRight_iff s.cpu.acc,
    cpuAfter_zf (.rrc o) s, pcAdvanced_of_pc rfl, cellsKept_stateAfter rfl s, envKept_stateAfter (.rrc o) s⟩

/-- Settles O26: INC's effect adds 1 to the accumulator and advances `PC`. -/
theorem incAddsOneModulo256 : Obligations.IncAddsOneModulo256 := by
  refine ⟨opcodeSelects_of_opcode fun _ => ⟨rfl, rfl, rfl⟩, fun s o => ?_⟩
  exact ⟨_, exec_eq (.inc o) s, rfl, toNat_increment s.cpu.acc, pcAdvanced_of_pc rfl, flagsKept_stateAfter rfl s,
    cellsKept_stateAfter rfl s, envKept_stateAfter (.inc o) s⟩

/-- Settles O27: DEC's effect subtracts 1 from the accumulator and advances `PC`. -/
theorem decSubtractsOneModulo256 : Obligations.DecSubtractsOneModulo256 := by
  refine ⟨opcodeSelects_of_opcode fun _ => ⟨rfl, rfl, rfl⟩, fun s o => ?_⟩
  exact ⟨_, exec_eq (.dec o) s, rfl, toNat_decrement s.cpu.acc, pcAdvanced_of_pc rfl, flagsKept_stateAfter rfl s,
    cellsKept_stateAfter rfl s, envKept_stateAfter (.dec o) s⟩

/-! ### Rotates as renumberings of the bits (R114) -/

/-- `f` moves every bit `d` places down, the lowest ones round to the top. -/
def RotatesDownBy (d : Nat) (f : Byte → Byte) : Prop :=
  ∀ a : Byte, ∀ k < 8, (f a).getLsbD k = a.getLsbD ((k + d) % 8)

theorem rotatesDownBy_rotateRight : RotatesDownBy 1 rotateRight := by
  intro a k hk
  rw [rotateRight, BitVec.getLsbD_append, BitVec.getLsbD_extractLsb', BitVec.getLsbD_extractLsb']
  by_cases h7 : k < 7
  · simp [h7, Nat.mod_eq_of_lt (Nat.succ_lt_succ h7), Nat.add_comm]
  · obtain rfl : k = 7 := by omega
    simp

/-- One place up is seven places down. -/
theorem rotatesDownBy_rotateLeft : RotatesDownBy 7 rotateLeft := by
  intro a k hk
  rw [rotateLeft, BitVec.getLsbD_append, BitVec.getLsbD_extractLsb', BitVec.getLsbD_extractLsb']
  cases k with
  | zero => simp
  | succ j =>
    have hindex : (j + 1 + 7) % 8 = j := by omega
    simp [hindex, Nat.lt_of_succ_lt_succ hk]

theorem RotatesDownBy.comp {d e : Nat} {f g : Byte → Byte} (hf : RotatesDownBy d f) (hg : RotatesDownBy e g) :
    RotatesDownBy (d + e) (f ∘ g) := by
  intro a k hk
  have hindex : ((k + d) % 8 + e) % 8 = (k + (d + e)) % 8 := by omega
  rw [Function.comp_apply, hf (g a) k hk, hg a _ (Nat.mod_lt _ (by decide)), hindex]

theorem RotatesDownBy.iterate {d : Nat} {f : Byte → Byte} (h : RotatesDownBy d f) (n : Nat) :
    RotatesDownBy (n * d) f^[n] := by
  induction n with
  | zero => exact fun a k hk => by rw [Function.iterate_zero_apply, Nat.zero_mul, Nat.add_zero, Nat.mod_eq_of_lt hk]
  | succ n ih =>
    rw [Nat.succ_mul, Function.iterate_succ]
    exact ih.comp h

/-- A rotation by whole turns leaves every bit in its place. -/
theorem RotatesDownBy.eq_self {d : Nat} {f : Byte → Byte} (h : RotatesDownBy d f) (hd : d % 8 = 0) (a : Byte) :
    f a = a := by
  apply BitVec.eq_of_getLsbD_eq
  intro k hk
  have hindex : (k + d) % 8 = k := by omega
  rw [h a k hk, hindex]

theorem rotateRight_rotateLeft (a : Byte) : rotateRight (rotateLeft a) = a :=
  (rotatesDownBy_rotateRight.comp rotatesDownBy_rotateLeft).eq_self rfl a

theorem rotateLeft_rotateRight (a : Byte) : rotateLeft (rotateRight a) = a :=
  (rotatesDownBy_rotateLeft.comp rotatesDownBy_rotateRight).eq_self rfl a

/-- Settles O50: the second rotate takes every bit back, and copies the one that wrapped first to the carry. -/
theorem rotatesUndoEachOther : Obligations.RotatesUndoEachOther := by
  intro s o o'
  constructor
  · exact ⟨_, _, exec_eq (.rlc o) s, exec_eq (.rrc o') _, rotateRight_rotateLeft s.cpu.acc,
      rotatesDownBy_rotateLeft s.cpu.acc 0 (by decide)⟩
  · exact ⟨_, _, exec_eq (.rrc o) s, exec_eq (.rlc o') _, rotateLeft_rotateRight s.cpu.acc,
      rotatesDownBy_rotateRight s.cpu.acc 7 (by decide)⟩

/-! ### An instruction repeated -/

theorem execTimes_eq (i : Instr) (n : Nat) (s : State) : execTimes i n s = .next ((stateAfter i)^[n] s) := by
  induction n generalizing s with
  | zero => rfl
  | succ n ih => rw [execTimes, exec_eq, Function.iterate_succ_apply, ← ih]

/-- An instruction that replaces the accumulator by a function of it alone iterates that function. -/
theorem acc_iterate_stateAfter {i : Instr} {f : Byte → Byte} (h : ∀ s, (cpuAfter i s).acc = f s.cpu.acc) (n : Nat)
    (s : State) : ((stateAfter i)^[n] s).cpu.acc = f^[n] s.cpu.acc := by
  have hsemiconj : Function.Semiconj (fun s : State => s.cpu.acc) (stateAfter i) f := h
  exact hsemiconj.iterate_right n s

/-- The datapath with `c` added to the accumulator and `d` added to `PC`. -/
def CpuState.shifted (cpu : CpuState) (c d : Byte) : CpuState := { cpu with acc := cpu.acc + c, pc := cpu.pc + d }

theorem shifted_zero (cpu : CpuState) : cpu.shifted 0 0 = cpu := by
  simp [CpuState.shifted]

theorem shifted_shifted (cpu : CpuState) (c d c' d' : Byte) :
    (cpu.shifted c d).shifted c' d' = cpu.shifted (c + c') (d + d') := by
  simp [CpuState.shifted, BitVec.add_assoc]

/-- An instruction that adds constants to the accumulator and to `PC` adds their multiples when it is repeated. The
constant of `PC` may depend on the parameter, which no step writes. -/
theorem cpu_iterate_stateAfter_of_adds {i : Instr} {c : Byte} {d : Params → Byte}
    (h : ∀ s, cpuAfter i s = s.cpu.shifted c (d s.params)) (n : Nat) (s : State) :
    ((stateAfter i)^[n] s).cpu = s.cpu.shifted (n • c) (n • d s.params) := by
  induction n generalizing s with
  | zero => rw [zero_nsmul, zero_nsmul, shifted_zero, Function.iterate_zero_apply]
  | succ n ih =>
    rw [Function.iterate_succ_apply, ih, stateAfter_cpu, h, shifted_shifted, succ_nsmul', succ_nsmul']
    rfl

theorem nsmul_256 (c : Byte) : 256 • c = 0 := by
  have hzero : ((256 : ℕ) : Byte) = 0 := rfl
  rw [nsmul_eq_mul, hzero, zero_mul]

theorem execTimes_256_of_adds {i : Instr} {c : Byte} {d : Params → Byte}
    (h : ∀ s, cpuAfter i s = s.cpu.shifted c (d s.params)) (s : State) :
    ∃ t, execTimes i 256 s = .next t ∧ t.cpu = s.cpu := by
  refine ⟨_, execTimes_eq i 256 s, ?_⟩
  rw [cpu_iterate_stateAfter_of_adds h, nsmul_256, nsmul_256, shifted_zero]

/-! ### Additions as effects -/

/-- What `Adv` adds to `PC`. -/
def advAmount (p : Params) : Byte := if p.pcAdvanceAll then 1 else 0

theorem adv_eq_add (p : Params) (pc : Byte) : adv p pc = pc + advAmount p := by
  cases hp : p.pcAdvanceAll <;> simp [adv, advAmount, pcPlusOne, hp]

theorem cpuAfter_nop_shifted (o : Operand) (s : State) : cpuAfter (.nop o) s = s.cpu.shifted 0 1 := by
  rw [CpuState.shifted, add_zero]
  rfl

theorem cpuAfter_inc_shifted (o : Operand) (s : State) :
    cpuAfter (.inc o) s = s.cpu.shifted 1 (advAmount s.params) := by
  rw [CpuState.shifted, ← adv_eq_add]
  rfl

theorem cpuAfter_dec_shifted (o : Operand) (s : State) :
    cpuAfter (.dec o) s = s.cpu.shifted (-1) (advAmount s.params) := by
  rw [CpuState.shifted, ← adv_eq_add, ← BitVec.sub_eq_add_neg]
  rfl

theorem complement_complement (a : Byte) : complement (complement a) = a := BitVec.not_not

theorem decrement_increment (a : Byte) : decrement (increment a) = a := BitVec.add_sub_cancel a 1

theorem increment_decrement (a : Byte) : increment (decrement a) = a := BitVec.sub_add_cancel a 1

/-- Settles O51: 256 equal additions and eight equal rotations are none at all, and the other pairs undo each
other. -/
theorem repeatedInstructionsComeRound : Obligations.RepeatedInstructionsComeRound := by
  intro s o o'
  refine ⟨execTimes_256_of_adds (d := fun _ => 1) (cpuAfter_nop_shifted o) s,
    execTimes_256_of_adds (cpuAfter_inc_shifted o) s, execTimes_256_of_adds (cpuAfter_dec_shifted o) s,
    ?rlc, ?rrc, ?invert, ?incDec, ?decInc⟩
  case rlc =>
    exact ⟨_, execTimes_eq _ 8 s, (acc_iterate_stateAfter (f := rotateLeft) (fun _ => rfl) 8 s).trans
      ((rotatesDownBy_rotateLeft.iterate 8).eq_self rfl s.cpu.acc)⟩
  case rrc =>
    exact ⟨_, execTimes_eq _ 8 s, (acc_iterate_stateAfter (f := rotateRight) (fun _ => rfl) 8 s).trans
      ((rotatesDownBy_rotateRight.iterate 8).eq_self rfl s.cpu.acc)⟩
  case invert => exact ⟨_, execTimes_eq _ 2 s, complement_complement s.cpu.acc, rfl, rfl⟩
  case incDec =>
    exact ⟨_, _, exec_eq (.inc o) s, exec_eq (.dec o') _, decrement_increment s.cpu.acc, rfl, rfl⟩
  case decInc =>
    exact ⟨_, _, exec_eq (.dec o) s, exec_eq (.inc o') _, increment_decrement s.cpu.acc, rfl, rfl⟩

end Sys2Proof.Machine
end

section
/-! PROOFS. HALT and the sequencer (44_halt_sequencer.md R120 to R125). Both ways to run a list of instructions, `Run` and
stepping the loaded machine, execute the list up to its first HALT: `executed`, which looks at the words alone. -/

namespace Sys2Proof.Machine

/-! ### HALT (R120) -/

/-- Settles O28: HALT's effect is the datapath itself. -/
theorem haltWritesNothingAndSignals : Obligations.HaltWritesNothingAndSignals :=
  ⟨opcodeSelects_of_opcode fun _ => ⟨rfl, rfl, rfl⟩,
    fun s o => ⟨_, exec_eq (.halt o) s, rfl, rfl, envKept_stateAfter (.halt o) s⟩⟩

theorem faultOf_of_isHalt {i : Instr} (h : isHalt i = true) : faultOf i = none := by
  cases i with
  | halt o => rfl
  | _ => cases h

/-- HALT, and nothing else, answers Halt. -/
theorem outcomeOf_eq_halt_iff (i : Instr) : outcomeOf i = .halt ↔ isHalt i = true := by
  constructor
  · unfold outcomeOf
    cases faultOf i with
    | some k => simp
    | none => cases isHalt i <;> simp
  · intro h
    simp [outcomeOf, faultOf_of_isHalt h, h]

/-! ### One step of the sequencer (R123) -/

/-- A step with a word presented executes it and hands its outcome to the sequencer. -/
theorem step_of_presented {s : State} {w : InstrWord} (hrst : s.rst = false) (h : s.presented = some w) :
    step s = .next ((stateAfter (decode w) s).accepted (decode w)) := by
  simp [step, hrst, h, issue_of_next (exec_eq (decode w) s)]

/-- Settles O3: the sequencer that accepts the outcome is the one that presented the word. -/
theorem stepExecutesThePresentedWord : Obligations.StepExecutesThePresentedWord := by
  rintro s w rest _ t hrst hstopped hpending rfl hexec
  cases (exec_eq (decode w) s).symm.trans hexec
  exact ⟨_, step_of_presented hrst ((presented_some_iff s w).mpr ⟨hstopped, rest, hpending⟩), rfl, rfl, rfl, rfl,
    congrArg List.tail hpending, decide_eq_true_iff, rfl⟩

/-! ### The list of outcomes is consistent (R123, R124) -/

/-- Settles O53: there is no entry, and the sequencer has not stopped. -/
theorem sequencerIsConsistentAtReset : Obligations.SequencerIsConsistentAtReset := by
  refine ⟨fun r hr => ?_, ?_⟩
  · cases hr
  · simp [State.reset, Sequencer.empty]

/-- While the sequencer goes on, no entry at all is a Halt. -/
theorem Sequencer.Consistent.no_halt {q : Sequencer} (h : q.Consistent) (hstopped : q.stopped = false) :
    ∀ r ∈ q.reports, r.outcome ≠ .halt := by
  obtain ⟨hinit, hlast⟩ := h
  obtain hnil | ⟨init, last, hconcat⟩ := List.eq_nil_or_concat q.reports
  · simp [hnil]
  · have hlast : last.outcome ≠ .halt := by simpa [hstopped, hconcat] using hlast
    have hinit : ∀ r ∈ init, r.outcome ≠ .halt := by simpa [hconcat] using hinit
    simpa [hconcat, or_imp, forall_and] using ⟨hinit, hlast⟩

/-- A sequencer that goes on stays consistent: the new entry is the last one, and decides about the stop. -/
theorem Sequencer.Consistent.accept {q : Sequencer} (h : q.Consistent) (hstopped : q.stopped = false) (i : Instr)
    (o : StepOutcome) : (q.accept i o).Consistent := by
  refine ⟨?init, ?last⟩
  case init =>
    rw [Sequencer.accept, List.dropLast_concat]
    exact h.no_halt hstopped
  case last => simp [Sequencer.accept]

/-- Settles O54: a step that executes a word has a sequencer that goes on, and every other step leaves it alone. -/
theorem everyStepKeepsTheSequencerConsistent : Obligations.EveryStepKeepsTheSequencerConsistent := by
  intro s t hs hstep
  refine step_keeps (fun s => s.seq.Consistent) (fun _ hs => hs) (fun s t w hpresented hs hexec => ?_) hstep hs
  cases (exec_eq (decode w) s).symm.trans hexec
  exact hs.accept ((presented_some_iff s w).mp hpresented).1 (decode w) (outcomeOf (decode w))

/-! ### What a run executes (R123) -/

/-- The words a run executes: up to the first HALT, that one included. -/
def executed : List InstrWord → List InstrWord
  | [] => []
  | w :: rest => if isHalt (decode w) then [w] else w :: executed rest

/-- The entry of an executed word. -/
def reportOf (w : InstrWord) : Report := { instr := decode w, outcome := outcomeOf (decode w) }

/-- The state after executing words one after another, each on the state the one before it left. -/
def stateAfterAll (ws : List InstrWord) (s : State) : State := ws.foldl (fun t w => stateAfter (decode w) t) s

theorem executed_cons_of_halt {w : InstrWord} (h : isHalt (decode w) = true) (rest : List InstrWord) :
    executed (w :: rest) = [w] := if_pos h

theorem executed_cons_of_not_halt {w : InstrWord} (h : isHalt (decode w) = false) (rest : List InstrWord) :
    executed (w :: rest) = w :: executed rest := by
  simp [executed, h]

/-- What is executed is the beginning of the list. -/
theorem executed_prefix (prog : List InstrWord) : executed prog <+: prog := by
  induction prog with
  | nil => exact List.prefix_rfl
  | cons w rest ih =>
    cases h : isHalt (decode w) with
    | true => exact executed_cons_of_halt h rest ▸ List.prefix_append [w] rest
    | false => exact executed_cons_of_not_halt h rest ▸ (List.prefix_cons_inj w).mpr ih

/-- Words among which there is no HALT are all executed, and then what follows them. -/
theorem executed_append {before : List InstrWord} (h : ∀ v ∈ before, isHalt (decode v) = false)
    (rest : List InstrWord) : executed (before ++ rest) = before ++ executed rest := by
  induction before with
  | nil => rfl
  | cons w before ih =>
    obtain ⟨hw, hbefore⟩ := List.forall_mem_cons.mp h
    rw [List.cons_append, executed_cons_of_not_halt hw, ih hbefore, List.cons_append]

/-! ### `Run` (R123, R124) -/

theorem runBatch_cons_of_halt {w : InstrWord} {s t : State} (hexec : exec (decode w) s = .next t)
    (h : t.outcome = .halt) (rest : List InstrWord) :
    runBatch (w :: rest) s = .next (t, [{ instr := decode w, outcome := .halt }]) := by
  simp [runBatch, hexec, h]

theorem runBatch_cons_of_not_halt {w : InstrWord} {rest : List InstrWord} {s t u : State} {reports : List Report}
    (hexec : exec (decode w) s = .next t) (h : t.outcome ≠ .halt) (hrest : runBatch rest t = .next (u, reports)) :
    runBatch (w :: rest) s = .next (u, { instr := decode w, outcome := t.outcome } :: reports) := by
  simp [runBatch, hexec, h, hrest]

/-- `Run` answers the state after the executed words and an entry for each of them. -/
theorem runBatch_eq (prog : List InstrWord) (s : State) :
    runBatch prog s = .next (stateAfterAll (executed prog) s, (executed prog).map reportOf) := by
  induction prog generalizing s with
  | nil => rfl
  | cons w rest ih =>
    have hexec := exec_eq (decode w) s
    have hhalt := outcomeOf_eq_halt_iff (decode w)
    cases h : isHalt (decode w) with
    | true =>
      rw [executed_cons_of_halt h, runBatch_cons_of_halt hexec (hhalt.mpr h), ← hhalt.mpr h]
      rfl
    | false =>
      rw [executed_cons_of_not_halt h, runBatch_cons_of_not_halt hexec (by simp [hhalt, h]) (ih _)]
      rfl

/-- Settles O55: the empty list by definition, then the two equations of `Run` on a list with a first word. -/
theorem runProcessesInstructionsInOrder : Obligations.RunProcessesInstructionsInOrder :=
  ⟨fun _ => rfl, fun _ rest _ _ hexec h => runBatch_cons_of_halt hexec h rest,
    fun _ rest _ t hexec h => ⟨_, _, runBatch_eq rest t, runBatch_cons_of_not_halt hexec h (runBatch_eq rest t)⟩⟩

/-- Settles O56: the entries are those of the executed words, which are the beginning of the list up to the first
HALT. -/
theorem runListsOneOutcomePerExecutedInstruction : Obligations.RunListsOneOutcomePerExecutedInstruction := by
  intro prog s
  refine ⟨_, _, runBatch_eq prog s, fun hnone => ?noHalt, ?firstHalt, ?instrs, ?halts, ?faults⟩
  case noHalt =>
    have hall : executed prog = prog := by simpa [executed] using executed_append hnone []
    rw [hall, List.length_map]
  case firstHalt =>
    rintro before w after rfl hw hbefore
    rw [executed_append hbefore, executed_cons_of_halt hw, List.length_map, List.length_append, List.length_singleton]
  case instrs =>
    calc ((executed prog).map reportOf).map Report.instr
        = (executed prog).map decode := List.map_map
      _ = (prog.take (executed prog).length).map decode := by
          rw [← List.prefix_iff_eq_take.mp (executed_prefix prog)]
      _ = (prog.map decode).take ((executed prog).map reportOf).length := by rw [List.map_take, List.length_map]
  case halts =>
    exact List.forall_mem_map.mpr fun w _ => outcomeOf_eq_halt_iff (decode w)
  case faults =>
    exact List.forall_mem_map.mpr fun w _ => outcomeOf_eq_fault_iff (decode w)

/-! ### Stepping a loaded machine (R123, R125) -/

/-- The state with another sequencer. -/
def State.withSequencer (s : State) (q : Sequencer) : State := { s with seq := q }

@[simp] theorem withSequencer_cpu (s : State) (q : Sequencer) : (s.withSequencer q).cpu = s.cpu := rfl
@[simp] theorem withSequencer_outcome (s : State) (q : Sequencer) : (s.withSequencer q).outcome = s.outcome := rfl
@[simp] theorem withSequencer_params (s : State) (q : Sequencer) : (s.withSequencer q).params = s.params := rfl
@[simp] theorem withSequencer_rst (s : State) (q : Sequencer) : (s.withSequencer q).rst = s.rst := rfl
@[simp] theorem withSequencer_seq (s : State) (q : Sequencer) : (s.withSequencer q).seq = q := rfl

/-- The sequencer after a run of `prog` that began with the entries `reports`. -/
def sequencerAfterRun (prog : List InstrWord) (reports : List Report) : Sequencer :=
  { pending := prog.drop (executed prog).length
    stopped := (executed prog).any fun w => isHalt (decode w)
    reports := reports ++ (executed prog).map reportOf }

theorem sequencerAfterRun_nil (reports : List Report) :
    sequencerAfterRun [] reports = { pending := [], stopped := false, reports := reports } := by
  simp [sequencerAfterRun, executed]

theorem sequencerAfterRun_cons_of_halt {w : InstrWord} (h : isHalt (decode w) = true) (rest : List InstrWord)
    (reports : List Report) :
    sequencerAfterRun (w :: rest) reports =
      { pending := rest, stopped := true, reports := reports ++ [reportOf w] } := by
  simp [sequencerAfterRun, executed_cons_of_halt h, h]

theorem sequencerAfterRun_cons_of_not_halt {w : InstrWord} (h : isHalt (decode w) = false) (rest : List InstrWord)
    (reports : List Report) :
    sequencerAfterRun (w :: rest) reports = sequencerAfterRun rest (reports ++ [reportOf w]) := by
  simp [sequencerAfterRun, executed_cons_of_not_halt h, h]

/-- Instructions neither read nor write the sequencer. -/
theorem stateAfter_withSequencer (i : Instr) (s : State) (q : Sequencer) :
    stateAfter i (s.withSequencer q) = (stateAfter i s).withSequencer q := by
  have hcpu : cpuAfter i (s.withSequencer q) = cpuAfter i s := cpuAfter_congr i rfl rfl
  rw [stateAfter, hcpu]
  rfl

theorem envKept_stateAfterAll (ws : List InstrWord) (s : State) : EnvKept s (stateAfterAll ws s) := by
  induction ws generalizing s with
  | nil => exact ⟨rfl, rfl, rfl⟩
  | cons w ws ih => exact ih (stateAfter (decode w) s)

/-- A machine whose sequencer has stopped or has nothing left stays as it is (92 D1). -/
theorem run_of_nothing_presented {s : State} {q : Sequencer} (hrst : s.rst = false)
    (h : q.stopped = true ∨ q.pending = []) (n : Nat) :
    Host.Core.run Sys2Proof.core n (s.withSequencer q) = .next (s.withSequencer q) := by
  have hnone : (s.withSequencer q).presented = none := by
    obtain h | h := h <;> simp [State.presented, h]
  have hstep : step (s.withSequencer q) = .next (s.withSequencer q) := by
    simp [step, hnone, hrst]
  induction n with
  | zero => rfl
  | succ n ih => rw [run_succ_of_next hstep, ih]

/-- The step that executes the first pending word. -/
theorem step_withSequencer_cons {s : State} (hrst : s.rst = false) (w : InstrWord) (rest : List InstrWord)
    (reports : List Report) :
    step (s.withSequencer { pending := w :: rest, stopped := false, reports := reports }) =
      .next ((stateAfter (decode w) s).withSequencer
        { pending := rest, stopped := isHalt (decode w), reports := reports ++ [reportOf w] }) := by
  have hstopped : decide (outcomeOf (decode w) = .halt) = isHalt (decode w) := by
    rw [Bool.eq_iff_iff, decide_eq_true_iff, outcomeOf_eq_halt_iff]
  refine Eq.trans (step_of_presented (w := w) hrst rfl) ?_
  rw [stateAfter_withSequencer, ← hstopped]
  rfl

/-- Stepping at least once per pending word leaves the state after the executed words. -/
theorem run_withSequencer (prog : List InstrWord) {s : State} (hrst : s.rst = false) (reports : List Report) {n : Nat}
    (hn : prog.length ≤ n) :
    Host.Core.run Sys2Proof.core n (s.withSequencer { pending := prog, stopped := false, reports := reports }) =
      .next ((stateAfterAll (executed prog) s).withSequencer (sequencerAfterRun prog reports)) := by
  induction prog generalizing s reports n with
  | nil =>
    rw [sequencerAfterRun_nil]
    exact run_of_nothing_presented hrst (.inr rfl) n
  | cons w rest ih =>
    obtain ⟨n, rfl⟩ := Nat.exists_eq_add_of_le' (Nat.one_le_of_lt hn)
    rw [run_succ_of_next (step_withSequencer_cons hrst w rest reports)]
    cases h : isHalt (decode w) with
    | true =>
      rw [executed_cons_of_halt h, sequencerAfterRun_cons_of_halt h]
      exact run_of_nothing_presented (s := stateAfter (decode w) s) hrst (.inl rfl) n
    | false =>
      rw [executed_cons_of_not_halt h, sequencerAfterRun_cons_of_not_halt h]
      exact ih (s := stateAfter (decode w) s) hrst _ (Nat.le_of_succ_le_succ hn)

/-- Settles O57: the loaded machine and `Run` both leave the state after the executed words. -/
theorem steppingALoadedMachineIsRun : Obligations.SteppingALoadedMachineIsRun := by
  intro prog s n hrst hn
  obtain ⟨hparams, hrst', -⟩ := envKept_stateAfterAll (executed prog) s
  refine ⟨_, _, _, runBatch_eq prog s, run_withSequencer prog hrst [] hn, rfl, rfl, hparams, hrst'.trans hrst,
    rfl, ?pending, ?stopped⟩
  case pending => simp [sequencerAfterRun]
  case stopped => simp [sequencerAfterRun, reportOf, outcomeOf_eq_halt_iff]

end Sys2Proof.Machine
end

section
/-! PROOFS. The three faults (60_exceptions.md R130 to R140). The outcome of an instruction is a fault exactly when the
table of R134 gives it one, so each claim about who raises a fault is a claim about a row of the table. -/

namespace Sys2Proof.Machine

/-! ### The table of R134 -/

/-- Settles O34: the outcome is a fault of R134's table and no other. -/
theorem faultTableIsComplete : Obligations.FaultTableIsComplete :=
  fun i s => ⟨_, exec_eq i s, outcomeOf_eq_fault_iff i⟩

/-- The rows of the table: the six with a memory address, the three jumps, the seven without operand, the unknown. -/
theorem faultTable_rows (i : Instr) :
    (∃ mk o, MemoryAddressed mk ∧ i = mk o) ∨ (∃ mk o, Jump mk ∧ i = mk o) ∨
      faultOf i = none ∨ faultOf i = some .unknownInstruction := by
  cases i with
  | lda o => exact .inl ⟨.lda, o, .inl rfl, rfl⟩
  | move o => exact .inl ⟨.move, o, .inr (.inl rfl), rfl⟩
  | and o => exact .inl ⟨.and, o, .inr (.inr (.inl rfl)), rfl⟩
  | ora o => exact .inl ⟨.ora, o, .inr (.inr (.inr (.inl rfl))), rfl⟩
  | xor o => exact .inl ⟨.xor, o, .inr (.inr (.inr (.inr (.inl rfl)))), rfl⟩
  | store o => exact .inl ⟨.store, o, .inr (.inr (.inr (.inr (.inr rfl)))), rfl⟩
  | jmp o => exact .inr (.inl ⟨.jmp, o, .inl rfl, rfl⟩)
  | jz o => exact .inr (.inl ⟨.jz, o, .inr (.inl rfl), rfl⟩)
  | jc o => exact .inr (.inl ⟨.jc, o, .inr (.inr rfl), rfl⟩)
  | nop _ | invert _ | rlc _ | rrc _ | dec _ | inc _ | halt _ => exact .inr (.inr (.inl rfl))
  | unknown16to31 _ _ | unknown32to63 _ _ => exact .inr (.inr (.inr rfl))

/-- An instruction whose outcome is a fault leaves the datapath as it was (R81). -/
theorem cpuAfter_of_outcomeOf_fault {i : Instr} {k : FaultKind} (h : outcomeOf i = .fault k) (s : State) :
    cpuAfter i s = s.cpu :=
  cpuAfter_of_fault (Option.ne_none_iff_exists'.mpr ⟨k, (outcomeOf_eq_fault_iff i k).mp h⟩) s

/-! ### MalformedOperand (R132) -/

theorem status_ne_valid_iff (o : Operand) : o.status ≠ .valid ↔ o.status = .absent ∨ o.status = .malformed := by
  cases o.status <;> simp

theorem missingOperandFault_eq_malformed_iff (o : Operand) :
    missingOperandFault o = some .malformedOperand ↔ o.status ≠ .valid := by
  simp [missingOperandFault]

/-- A memory address is checked to be there and valid as a jump target is. -/
theorem addressFault_eq_malformed_iff (o : Operand) :
    addressFault o = some .malformedOperand ↔ o.status ≠ .valid := by
  refine ⟨fun h ho => ?_, addressFault_of_not_valid⟩
  rw [addressFault, if_pos ho] at h
  split at h <;> cases h

theorem faultOf_eq_malformed_iff {mk : Operand → Instr} (h : MemoryAddressed mk ∨ Jump mk) (o : Operand) :
    faultOf (mk o) = some .malformedOperand ↔ o.status ≠ .valid := by
  obtain h | h := h
  · rw [faultOf_memoryAddressed h, addressFault_eq_malformed_iff]
  · rw [faultOf_jump h, missingOperandFault_eq_malformed_iff]

/-- Only the nine that require an operand raise MalformedOperand. -/
theorem requiresOperand_of_malformed {i : Instr} (h : faultOf i = some .malformedOperand) :
    ∃ mk o, (MemoryAddressed mk ∨ Jump mk) ∧ i = mk o := by
  obtain ⟨mk, o, hmk, hi⟩ | ⟨mk, o, hmk, hi⟩ | hi | hi := faultTable_rows i
  · exact ⟨mk, o, .inl hmk, hi⟩
  · exact ⟨mk, o, .inr hmk, hi⟩
  · cases hi.symm.trans h
  · cases hi.symm.trans h

theorem operand_decode (w : InstrWord) : (decode w).operand = decodeOperand w := operand_instrOf _ _

/-- Settles O32: the rows of the table that hold MalformedOperand, and the bits `P` and `V` of a word. -/
theorem malformedOperandExactly : Obligations.MalformedOperandExactly := by
  refine ⟨fun mk hmk s o => ?nine, fun i s hi => ?others, fun w => ?word⟩
  case nine =>
    refine ⟨_, exec_eq (mk o) s, ?_, fun h => cpuAfter_of_outcomeOf_fault h s⟩
    rw [stateAfter_outcome, outcomeOf_eq_fault_iff, faultOf_eq_malformed_iff hmk, status_ne_valid_iff]
  case others =>
    refine ⟨_, exec_eq i s, fun h => ?_⟩
    obtain ⟨mk, o, hmk, himk⟩ := requiresOperand_of_malformed ((outcomeOf_eq_fault_iff i _).mp h)
    exact hi mk hmk o himk
  case word =>
    obtain ⟨-, -, hvalid, -⟩ := hasOperand_decodeOperand w
    rwa [operand_decode]

/-! ### AddressOutOfRange (R133) -/

theorem addressFault_eq_outOfRange_iff (o : Operand) :
    addressFault o = some .addressOutOfRange ↔ o.status = .valid ∧ 15 < o.value.toNat := by
  unfold addressFault
  by_cases ho : o.status = .valid <;> simp [ho]

theorem missingOperandFault_ne_outOfRange (o : Operand) : missingOperandFault o ≠ some .addressOutOfRange := by
  simp [missingOperandFault]

/-- Only the six whose operand is a memory address raise AddressOutOfRange: a jump checks its operand's status only. -/
theorem memoryAddressed_of_outOfRange {i : Instr} (h : faultOf i = some .addressOutOfRange) :
    ∃ mk o, MemoryAddressed mk ∧ i = mk o := by
  obtain hi | ⟨mk, o, hmk, rfl⟩ | hi | hi := faultTable_rows i
  · exact hi
  · exact absurd ((faultOf_jump hmk o).symm.trans h) (missingOperandFault_ne_outOfRange o)
  · cases hi.symm.trans h
  · cases hi.symm.trans h

/-- Settles O33: the one row of the table that holds AddressOutOfRange. -/
theorem addressOutOfRangeExactly : Obligations.AddressOutOfRangeExactly := by
  refine ⟨fun mk hmk s o => ?six, fun i s hi => ?others⟩
  case six =>
    refine ⟨_, exec_eq (mk o) s, ?_, fun h => cpuAfter_of_outcomeOf_fault h s⟩
    rw [stateAfter_outcome, outcomeOf_eq_fault_iff, faultOf_memoryAddressed hmk, addressFault_eq_outOfRange_iff]
  case others =>
    refine ⟨_, exec_eq i s, fun h => ?_⟩
    obtain ⟨mk, o, hmk, himk⟩ := memoryAddressed_of_outOfRange ((outcomeOf_eq_fault_iff i _).mp h)
    exact hi mk hmk o himk

/-! ### The outputs `fault` and `halt` (R130, R140) -/

theorem faultPort_of_fault {i : Instr} {k : FaultKind} (h : faultOf i = some k) (s : State) :
    (stateAfter i s).faultPort = k.code := by
  rw [State.faultPort, stateAfter_outcome, (outcomeOf_eq_fault_iff i k).mpr h, StepOutcome.faultCode]

theorem faultPort_of_faultFree {i : Instr} (h : faultOf i = none) (s : State) : (stateAfter i s).faultPort = 0 := by
  rw [State.faultPort, stateAfter_outcome, outcomeOf, h]
  cases isHalt i <;> rfl

theorem haltBit_eq_true_iff (r : StepOutcome) : r.haltBit = true ↔ r = .halt := by
  cases r <;> simp [StepOutcome.haltBit]

theorem haltPort_stateAfter (i : Instr) (s : State) : (stateAfter i s).haltPort = isHalt i := by
  rw [Bool.eq_iff_iff, ← outcomeOf_eq_halt_iff]
  exact haltBit_eq_true_iff (outcomeOf i)

/-- Settles O36: the code of the table's fault, and the halt bit of HALT, which has no fault. -/
theorem outputsShowTheOutcome : Obligations.OutputsShowTheOutcome := by
  intro i s
  refine ⟨_, exec_eq i s, fun h => faultPort_of_faultFree h s, fun h => faultPort_of_fault h s,
    fun h => faultPort_of_fault h s, fun h => faultPort_of_fault h s, haltPort_stateAfter i s, ?_⟩
  rintro ⟨hhalt, hfault⟩
  rw [haltPort_stateAfter] at hhalt
  exact hfault (faultPort_of_faultFree (faultOf_of_isHalt hhalt) s)

/-! ### The run after a fault (R137, R139) -/

/-- Settles O37: the sequencer accepts a fault like any outcome but Halt. -/
theorem aFaultDoesNotStopTheRun : Obligations.AFaultDoesNotStopTheRun := by
  intro s w rest k hrst hstopped hpending hfault
  have houtcome : outcomeOf (decode w) = .fault k := (outcomeOf_eq_fault_iff (decode w) k).mpr hfault
  have hpresented : s.presented = some w := (presented_some_iff s w).mpr ⟨hstopped, rest, hpending⟩
  refine ⟨_, step_of_presented hrst hpresented, cpuAfter_of_outcomeOf_fault houtcome s, houtcome, ?stopped,
    congrArg List.tail hpending, ?reports⟩
  case stopped => simp [State.accepted, Sequencer.accept, houtcome]
  case reports => simp [State.accepted, Sequencer.accept, stateAfter, houtcome]

end Sys2Proof.Machine
end

section
/-! PROOFS. The reset input (70_reset_and_hazards.md R150, R151; 92 D1, D14). -/

namespace Sys2Proof.Machine

/-- With the reset input set a step is a reset, whatever is presented. -/
theorem step_of_rst {s : State} (hrst : s.rst = true) : step s = .next s.applyReset := if_pos hrst

/-- Settles O2: the step is a reset, whose datapath is that of `State.reset`, where everything is zero. -/
theorem resetInputZeroesTheDatapath : Obligations.ResetInputZeroesTheDatapath := by
  intro s hrst
  refine ⟨s.applyReset, step_of_rst hrst, ?_⟩
  rw [applyReset_cpu]
  exact resetLeavesEverythingZero

end Sys2Proof.Machine
end

section
/-! PROOFS. A step with nothing presented (92 D1, log entry 6). -/

namespace Sys2Proof.Machine

/-- Nothing is presented by a sequencer that has stopped or has an empty list, and by no other. -/
theorem presented_eq_none_iff (s : State) :
    s.presented = none ↔ s.seq.stopped = true ∨ s.seq.pending = [] := by
  rw [State.presented]
  cases s.seq.stopped <;> simp

/-- Of what a step can do, only staying is left without a reset and without a word to execute. -/
theorem step_of_presented_none {s : State} (hrst : s.rst = false) (hnone : s.presented = none) :
    step s = .next s := by
  obtain ⟨hreset, -⟩ | ⟨-, -, hstay⟩ | ⟨w, -, -, hsome, -⟩ := step_cases s
  · cases hrst.symm.trans hreset
  · exact hstay
  · cases hnone.symm.trans hsome

/-- Settles O4: a sequencer that has stopped or has an empty list presents nothing, so the step stays. -/
theorem stepWithNothingPresentedChangesNothing : Obligations.StepWithNothingPresentedChangesNothing :=
  fun s hrst hidle => step_of_presented_none hrst ((presented_eq_none_iff s).mpr hidle)

end Sys2Proof.Machine
end
